-- ==== Sys2Proof/Word.lean ====
section
/-! DEFINITION. The word types of the engine: unsigned values of 32 and 8 bits (00_scope.md R5, R10). -/

namespace Sys2Proof

/-- A datapath word, u32 (R5). -/
abbrev Word := BitVec 32

/-- A byte, u8. -/
abbrev Byte := BitVec 8

end Sys2Proof
end

