-- ==== Sys2Proof/Syntax.lean ====
section
/-! DEFINITION. The three formats as raw items, the CTRL commands, and `Instr`: one constructor per row of
spec/opcode_table.json. -/

namespace Sys2Proof

/-- One host access as the bus carries it (20_memory.md R51, 30_encoding.md R74): the 3-bit descriptor, the window
offset of the lowest byte, and the data. A 1-byte write uses the data's low byte; a read uses none (assumption 9). -/
structure Access where
  op   : BitVec 3
  off  : BitVec 8
  data : Word
  deriving DecidableEq, Repr

/-- A word to be decoded, in one of the three formats of 30_encoding.md R70. -/
inductive Item where
  /-- CTRL: the data of a 4-byte write to window offset 0x00. -/
  | ctrl (w : Word)
  /-- BUS: one host access. -/
  | bus (op : BitVec 3) (off : BitVec 8) (data : Word)
  /-- RSEL: j[5:4] of the round counter. -/
  | rsel (sel : BitVec 2)
  deriving DecidableEq, Repr

/-- What a CTRL word says (30_encoding.md R72). -/
inductive CtrlCmd where
  | illegal
  | nop
  | init
  | compress (last : Bool)
  deriving DecidableEq, Repr

/-- Why an item is no instruction. -/
inductive Reject where
  /-- The CTRL word is illegal (30_encoding.md R73). -/
  | illegalCtrl (w : Word)
  /-- The descriptor is a 2-byte or 8-byte transfer (30_encoding.md R74). -/
  | badSize (op : BitVec 3)
  deriving DecidableEq, Repr

/-- The instructions: the rows of spec/opcode_table.json. -/
inductive Instr where
  /-- NOP (CTRL, 44_commands.md R162). -/
  | nop
  /-- INIT (CTRL, R163). -/
  | init
  /-- COMPRESS (CTRL, R164), with its LAST field. -/
  | compress (last : Bool)
  /-- RD8 (BUS, R166). -/
  | rd8 (off : BitVec 8)
  /-- WR8 (BUS, R168). -/
  | wr8 (off : BitVec 8) (v : Byte)
  /-- RD32 (BUS, R165). -/
  | rd32 (off : BitVec 8)
  /-- WR32 (BUS, R167). -/
  | wr32 (off : BitVec 8) (v : Word)
  /-- F (RSEL, 40_primitives.md R105): a round step of rounds 0..15. -/
  | roundF
  /-- G (RSEL, R106): a round step of rounds 16..31. -/
  | roundG
  /-- H (RSEL, R107): a round step of rounds 32..47. -/
  | roundH
  /-- I (RSEL, R108): a round step of rounds 48..63. -/
  | roundI
  deriving DecidableEq, Repr

end Sys2Proof
end

