-- ==== Sys2Proof/WellFormed.lean ====
section
/-! DEFINITION. Which terms of `Instr` are the spelling of an instruction. Every operand has its exact width in its
type, so one check is left: a 4-byte write of a legal CTRL word to offset 0x00 IS that CTRL instruction
(30_encoding.md R70, R78), and is written as NOP, INIT or COMPRESS. -/

namespace Sys2Proof

/-- The four legal CTRL words (30_encoding.md R72). -/
def legalCtrlWord (w : Word) : Bool :=
  w == 0x00000000 || w == 0x00000001 || w == 0x00000002 || w == 0x00000006

/-- `wr32` is ill-formed exactly where its access carries a legal CTRL word (assumption 7). -/
def Instr.wellFormed : Instr → Bool
  | .nop => true
  | .init => true
  | .compress _ => true
  | .rd8 _ => true
  | .wr8 _ _ => true
  | .rd32 _ => true
  | .wr32 off v => !(off == 0x00 && legalCtrlWord v)
  | .roundF => true
  | .roundG => true
  | .roundH => true
  | .roundI => true

end Sys2Proof
end

