-- ==== Sys2Proof/Decode.lean ====
section
/-! DEFINITION. Decoding of the three formats (30_encoding.md R70 to R76), total and rejecting by name, and the
encoder written from the same tables. -/

namespace Sys2Proof

/-- decodeCtrl (30_encoding.md R72): bits 31:3 must be 0; CMD is bits 1:0 and LAST is bit 2. -/
def decodeCtrl (w : Word) : CtrlCmd :=
  if w.extractLsb' 3 29 ≠ 0 then .illegal
  else
    match (w.extractLsb' 0 2).toNat, w.getLsbD 2 with
    | 0, false => .nop
    | 1, false => .init
    | 2, l => .compress l
    | _, _ => .illegal

/-- The instruction of a legal command, none for an illegal word. -/
def instrOfCtrl : CtrlCmd → Option Instr
  | .illegal => none
  | .nop => some .nop
  | .init => some .init
  | .compress l => some (.compress l)

/-- A 4-byte write: at offset 0x00 its data is a CTRL word (R70), and a legal one is that CTRL instruction; an
illegal one stays the plain write whose meaning raises ErrCmd (R73). -/
def decodeWr32 (off : BitVec 8) (v : Word) : Instr :=
  if off = 0x00 then (instrOfCtrl (decodeCtrl v)).getD (.wr32 off v) else .wr32 off v

/-- The BUS descriptor (30_encoding.md R74): op[0] is the direction, op[2:1] the size code. -/
def decodeBus (op : BitVec 3) (off : BitVec 8) (data : Word) : Except Reject Instr :=
  match op.toNat with
  | 0b000 => .ok (.rd8 off)
  | 0b001 => .ok (.wr8 off (data.extractLsb' 0 8))
  | 0b100 => .ok (.rd32 off)
  | 0b101 => .ok (decodeWr32 off data)
  | _ => .error (.badSize op)

/-- The round selector (30_encoding.md R75); all four codes are used. -/
def decodeRsel (sel : BitVec 2) : Instr :=
  match sel.toNat with
  | 0b00 => .roundF
  | 0b01 => .roundG
  | 0b10 => .roundH
  | _ => .roundI

/-- Decoding of any item of any format. -/
def decode : Item → Except Reject Instr
  | .ctrl w =>
    match instrOfCtrl (decodeCtrl w) with
    | some i => .ok i
    | none => .error (.illegalCtrl w)
  | .bus op off data => decodeBus op off data
  | .rsel sel => .ok (decodeRsel sel)

/-- The words of an instruction (30_encoding.md R72, R74, R75). -/
def encode : Instr → Item
  | .nop => .ctrl 0x00000000
  | .init => .ctrl 0x00000001
  | .compress last => .ctrl (if last then 0x00000006 else 0x00000002)
  | .rd8 off => .bus 0b000 off 0
  | .wr8 off v => .bus 0b001 off (v.setWidth 32)
  | .rd32 off => .bus 0b100 off 0
  | .wr32 off v => .bus 0b101 off v
  | .roundF => .rsel 0b00
  | .roundG => .rsel 0b01
  | .roundH => .rsel 0b10
  | .roundI => .rsel 0b11

/-- The access that carries an item to the engine: a CTRL word is the data of `WR32 0x00` (30_encoding.md R70, R78).
A round selector is internal, no access carries it. -/
def carrier : Item → Option Access
  | .ctrl w => some ⟨0b101, 0x00, w⟩
  | .bus op off data => some ⟨op, off, data⟩
  | .rsel _ => none

/-- The item a word of spec/opcode_table.json stands for. The table's numbering says the width and not the format, and
the format is known from the carrier alone (R70): 32 bits are a CTRL word, 3 bits a BUS descriptor (offset and data 0),
2 bits a round selector. In a whole byte the BUS and RSEL codes coincide; the byte is read as a BUS descriptor, and as a
round selector where no BUS row has that code (assumption 8). -/
def tableItem (nbits w : Nat) : Option Item :=
  match nbits with
  | 32 => if w < 2 ^ 32 then some (.ctrl (BitVec.ofNat 32 w)) else none
  | 3 => if w < 8 then some (.bus (BitVec.ofNat 3 w) 0x00 0) else none
  | 2 => if w < 4 then some (.rsel (BitVec.ofNat 2 w)) else none
  | 8 =>
    if w = 2 ∨ w = 3 then some (.rsel (BitVec.ofNat 2 w))
    else if w < 8 then some (.bus (BitVec.ofNat 3 w) 0x00 0)
    else none
  | _ => none

/-- The instruction the decoder reads from a word of the opcode table. -/
def decodeTableWord (nbits w : Nat) : Option Instr :=
  match tableItem nbits w with
  | none => none
  | some it =>
    match decode it with
    | .ok i => some i
    | .error _ => none

end Sys2Proof
end

