-- ==== Sys2Proof/Config.lean ====
section
/-! DEFINITION. What an implementation fixes and the spec does not: the free values. ENGINE_BASE and N_ENGINES
(00_scope.md R9) are arguments, held by Machine/Platform.lean. -/

namespace Sys2Proof

/-- FREE VALUE (assumption 3). What the block storage holds at index `i` when no byte has been written there since
reset: "The hardware holds whatever its storage holds" (10_state.md R31). Only a round step whose block has an
unwritten byte reads it, and no run reaches one. No body: nothing can be proved about its value. -/
opaque Config.storageByte : Nat → Byte

end Sys2Proof
end

