-- ==== Sys2Proof/Machine/Primitives.lean ====
section
/-! DEFINITION. The bit and word primitives of the round datapath (40_primitives.md R100 to R109): pure functions, no
flags, no errors. -/

namespace Sys2Proof.Machine

/-- ADD32 (R100): the sum of the unsigned values modulo 2^32, the carry discarded. -/
def add32 (x y : Word) : Word := BitVec.ofNat 32 (x.toNat + y.toNat)

/-- The formula of ROTL32 (R102), read only for 0 < n < 32. -/
def rotateLeft (x : Word) (n : Nat) : Word := (x <<< n) ||| (x >>> (32 - n))

/-- ROTL32 as a function of its own (R102): refused, by no value, for n outside 1..31
(93_implementation_defined.md U1). -/
def rotl32 (x : Word) (n : Nat) : Option Word :=
  if 0 < n ∧ n < 32 then some (rotateLeft x n) else none

/-- NOT32 (R103). -/
def not32 (x : Word) : Word := x ^^^ 0xFFFFFFFF

/-- F (R105). -/
def fnF (b c d : Word) : Word := (b &&& c) ||| (not32 b &&& d)

/-- G (R106). -/
def fnG (b c d : Word) : Word := (b &&& d) ||| (c &&& not32 d)

/-- H (R107). -/
def fnH (b c d : Word) : Word := b ^^^ c ^^^ d

/-- I (R108). -/
def fnI (b c d : Word) : Word := c ^^^ (b ||| not32 d)

/-- The round-function selector RF (R104). -/
def roundFunction (sel : BitVec 2) (b c d : Word) : Word :=
  match sel.toNat with
  | 0b00 => fnF b c d
  | 0b01 => fnG b c d
  | 0b10 => fnH b c d
  | _ => fnI b c d

end Sys2Proof.Machine
end

