-- ==== Sys2Proof/Machine/Rom.lean ====
section
/-! DEFINITION. The constants of the machine: the initial value, the round-constant ROM T, the shift ROM S, the
message-index generator (10_state.md R22, R34; 41_rom_tables.md R120 to R125). No step writes them. -/

namespace Sys2Proof.Machine

/-- Four words, in the spec's order a, b, c, d: the shape of the chaining state and of the working registers. -/
structure Quad where
  a : Word
  b : Word
  c : Word
  d : Word
  deriving DecidableEq, Repr

/-- The initial value (10_state.md R22). -/
def iv : Quad := ⟨0x67452301, 0xEFCDAB89, 0x98BADCFE, 0x10325476⟩

/-- T[0..15] (41_rom_tables.md R120). -/
def tRomF : List Word :=
  [0xD76AA478, 0xE8C7B756, 0x242070DB, 0xC1BDCEEE, 0xF57C0FAF, 0x4787C62A, 0xA8304613, 0xFD469501,
   0x698098D8, 0x8B44F7AF, 0xFFFF5BB1, 0x895CD7BE, 0x6B901122, 0xFD987193, 0xA679438E, 0x49B40821]

/-- T[16..31]. -/
def tRomG : List Word :=
  [0xF61E2562, 0xC040B340, 0x265E5A51, 0xE9B6C7AA, 0xD62F105D, 0x02441453, 0xD8A1E681, 0xE7D3FBC8,
   0x21E1CDE6, 0xC33707D6, 0xF4D50D87, 0x455A14ED, 0xA9E3E905, 0xFCEFA3F8, 0x676F02D9, 0x8D2A4C8A]

/-- T[32..47]. -/
def tRomH : List Word :=
  [0xFFFA3942, 0x8771F681, 0x6D9D6122, 0xFDE5380C, 0xA4BEEA44, 0x4BDECFA9, 0xF6BB4B60, 0xBEBFBC70,
   0x289B7EC6, 0xEAA127FA, 0xD4EF3085, 0x04881D05, 0xD9D4D039, 0xE6DB99E5, 0x1FA27CF8, 0xC4AC5665]

/-- T[48..63]. -/
def tRomI : List Word :=
  [0xF4292244, 0x432AFF97, 0xAB9423A7, 0xFC93A039, 0x655B59C3, 0x8F0CCC92, 0xFFEFF47D, 0x85845DD1,
   0x6FA87E4F, 0xFE2CE6E0, 0xA3014314, 0x4E0811A1, 0xF7537E82, 0xBD3AF235, 0x2AD7D2BB, 0xEB86D391]

/-- The T ROM, 64 words (R120). -/
def tRom : List Word := tRomF ++ tRomG ++ tRomH ++ tRomI

/-- T[j], addressed by the 6-bit round index (R120). The list has 64 entries, so the default is never read. -/
def roundConstant (j : BitVec 6) : Word := tRom.getD j.toNat 0

/-- The S ROM, row by row (41_rom_tables.md R121). -/
def sRom : List (BitVec 5) :=
  [7, 12, 17, 22,
   5, 9, 14, 20,
   4, 11, 16, 23,
   6, 10, 15, 21]

/-- S[sel][col] (R121). The list has 16 entries, so the default is never read. -/
def shiftAmount (sel col : BitVec 2) : BitVec 5 := sRom.getD (4 * sel.toNat + col.toNat) 0

/-- sel = j[5:4] (30_encoding.md R75). -/
def selOf (j : BitVec 6) : BitVec 2 := j.extractLsb' 4 2

/-- col = j[1:0] (30_encoding.md R76). -/
def colOf (j : BitVec 6) : BitVec 2 := j.extractLsb' 0 2

/-- The message index k(j) (41_rom_tables.md R122); the narrowing to 4 bits is the rule's mod 16. -/
def messageIndex (j : BitVec 6) : BitVec 4 :=
  match (selOf j).toNat with
  | 0b00 => BitVec.ofNat 4 j.toNat
  | 0b01 => BitVec.ofNat 4 (5 * j.toNat + 1)
  | 0b10 => BitVec.ofNat 4 (3 * j.toNat + 5)
  | _ => BitVec.ofNat 4 (7 * j.toNat)

end Sys2Proof.Machine
end

