-- ==== Sys2Proof/Machine/State.lean ====
section
/-! DEFINITION. The state of the machine as plain data: every element of 10_state.md R20, and the model's own record of
what happens next (`turns`) and of what the host received (`responses`). -/

namespace Sys2Proof.Machine

/-- The reasons of the model's fault record (60_exceptions.md R201): the spec has an instruction that meets one RECORD it
in the state (field `fault`) and change nothing else (R206), so a meaning answers a next state with the record set, never
the outcome `fault`. Safe: the model stops concluding where the hardware goes on with whatever its storage holds. -/
inductive Fault where
  /-- Recorded by COMPRESS when some block byte has never been written since reset (42_compression.md R131). Safe. -/
  | unwrittenBlockByte
  /-- Recorded by RD8 and RD32 when a block byte they read has never been written since reset (44_commands.md R165,
  R166). Safe. -/
  | unwrittenBlockRead
  deriving DecidableEq, Repr

/-- Why `exec` answers no state. -/
inductive Refusal where
  /-- Raised by an arm of `exec` whose instruction has no meaning yet. Safe. No arm raises it. -/
  | notModelled (mnemonic : String)
  /-- Raised by `exec` of F, G, H or I in a state in which the engine's next step is no round of that selector: BUSY = 0,
  j = 64, or j[5:4] another code. The spec gives no effect there: RoundStep's precondition is BUSY = 1 and j < 64
  (42_compression.md R132) and the selector IS j[5:4] (30_encoding.md R75). `step` never raises it. Safe. -/
  | roundNotEnabled
  deriving DecidableEq, Repr

/-- The causes of a bus error (60_exceptions.md R201). -/
inductive BusCause where
  | badSize
  | misaligned
  | unmapped
  | roWrite
  | notReady
  deriving DecidableEq, Repr

/-- What one host access returned. The host sees that an access failed and not the cause (60_exceptions.md R202); the
cause is kept for the model, as 93_implementation_defined.md U5 asks. -/
inductive Response where
  /-- The normal response to a write, also to one the engine dropped (R203 to R205). -/
  | ok
  /-- The value of a 1-byte read. -/
  | data8 (v : Byte)
  /-- The value of a 4-byte read. -/
  | data32 (v : Word)
  /-- An error response. -/
  | busError (cause : BusCause)
  deriving DecidableEq, Repr

/-- What happens next (00_scope.md R13, 70_reset_and_hazards.md R230). -/
inductive Turn where
  /-- The host performs this access. -/
  | host (a : Access)
  /-- The engine agent takes its step, if one is enabled. -/
  | engine
  /-- The platform asserts the reset input. -/
  | reset
  deriving DecidableEq, Repr

/-- The block buffer's contents: (index, byte) pairs, indices strictly rising and below 64. An index that is not listed
holds no value (10_state.md R31): its written flag is 0 (R32). -/
abbrev Memory := List Host.Cell

structure State where
  /-- A, B, C, D, the chaining state (R21). -/
  chain     : Quad
  /-- a, b, c, d, the working registers (R23). -/
  work      : Quad
  /-- The round counter, 0..64 (R24). -/
  j         : BitVec 7
  /-- BUSY, STATUS[0] (R25). -/
  busy      : Bool
  /-- L, the LAST latch (R26). -/
  last      : Bool
  /-- DONE, STATUS[1] (R27). -/
  done      : Bool
  /-- ERR_CMD, STATUS[2], sticky (R28). -/
  errCmd    : Bool
  /-- ERR_BUSY, STATUS[3], sticky (R29). -/
  errBusy   : Bool
  /-- ERR_SEQ, STATUS[4], sticky (R30). -/
  errSeq    : Bool
  /-- The block buffer m[0..63] with its written flags wr[0..63] (R31, R32). -/
  block     : Memory
  /-- The fault record (R36). -/
  fault     : Option Fault
  /-- The model's own: what happens next, first the head (assumption 4). -/
  turns     : List Turn
  /-- The model's own: what the host's accesses returned, newest first (assumption 5). -/
  responses : List Response
  deriving DecidableEq, Repr

/-- The machine right after power-on reset (70_reset_and_hazards.md R230). The working registers are unspecified there:
zero is the model's choice (assumption 1). -/
def State.reset : State where
  chain     := iv
  work      := ⟨0, 0, 0, 0⟩
  j         := 0
  busy      := false
  last      := false
  done      := false
  errCmd    := false
  errBusy   := false
  errSeq    := false
  block     := []
  fault     := none
  turns     := []
  responses := []

end Sys2Proof.Machine
end

