-- ==== Sys2Proof/Machine/Ops.lean ====
section
/-! DEFINITION. The named operations over the block buffer and the registers, every way an access can end
(60_exceptions.md R202 to R206), and reset. The engine has no trap entry and no trap return (R209, R210): the operations
`busError`, `raiseErrBusy`, `raiseErrCmd`, `raiseErrSeq` and `recordFault` are all there is in their place. -/

namespace Sys2Proof.Machine

/-! ### The block buffer -/

/-- The byte written last at index `a`, none if none has been written since reset (10_state.md R31). -/
def blockRead : Memory → Nat → Option Byte
  | [], _ => none
  | (k, v) :: rest, a => if a = k then some v else blockRead rest a

/-- Store one byte, keeping the indices strictly rising. -/
def blockWrite : Memory → Nat → Byte → Memory
  | [], a, v => [(a, v)]
  | (k, w) :: rest, a, v =>
    if a < k then (a, v) :: (k, w) :: rest
    else if a = k then (a, v) :: rest
    else (k, w) :: blockWrite rest a v

/-- Store consecutive bytes, the first at index `a`. -/
def blockWriteBytes : Memory → Nat → List Byte → Memory
  | m, _, [] => m
  | m, a, v :: vs => blockWriteBytes (blockWrite m a v) (a + 1) vs

/-- The written flag wr[i] (10_state.md R32). -/
def written (m : Memory) (i : Nat) : Bool := (blockRead m i).isSome

/-- Every one of the 64 written flags is 1 (42_compression.md R131). -/
def blockComplete (m : Memory) : Bool := (List.range 64).all (written m)

/-- The canonical form, from a least index on: indices strictly rising and below 64. -/
def Memory.wfFrom : Nat → Memory → Bool
  | _, [] => true
  | lo, (k, _) :: rest => decide (lo ≤ k) && decide (k < 64) && Memory.wfFrom (k + 1) rest

/-- The canonical form of the block buffer. No value is the default of an unlisted index, so every listed byte stays
listed. -/
def Memory.wf (m : Memory) : Bool := Memory.wfFrom 0 m

/-- What the storage holds at index `i` for the datapath: the byte written there, else the free value of assumption 3
(no run reaches a round step that reads it). -/
def storedByte (m : Memory) (i : Nat) : Byte := (blockRead m i).getD (Config.storageByte i)

/-! ### Byte lanes (20_memory.md R53) -/

/-- Four bytes as a word, the first in bits 7:0. -/
def packWord (b0 b1 b2 b3 : Byte) : Word := b3 ++ b2 ++ b1 ++ b0

/-- Byte lane `q` of a word: bits 8q+7 : 8q. -/
def byteLane (v : Word) (q : Nat) : Byte := v.extractLsb' (8 * q) 8

/-- The four byte lanes of a word, lowest first. -/
def wordBytes (v : Word) : List Byte := [byteLane v 0, byteLane v 1, byteLane v 2, byteLane v 3]

/-! ### How an access ends -/

/-- The host receives `r`. -/
def respond (r : Response) (s : State) : State := { s with responses := r :: s.responses }

/-- raise BusError (60_exceptions.md R202): an error response, and no engine state changes. -/
def busError (c : BusCause) (s : State) : State := respond (.busError c) s

/-- raise ErrBusy (R203): the write is dropped, ERR_BUSY is set, the response is normal. -/
def raiseErrBusy (s : State) : State := respond .ok { s with errBusy := true }

/-- raise ErrCmd (R204). -/
def raiseErrCmd (s : State) : State := respond .ok { s with errCmd := true }

/-- raise ErrSeq (R205). -/
def raiseErrSeq (s : State) : State := respond .ok { s with errSeq := true }

/-- fault(reason) (R206): the record is set and nothing else changes, the host receives nothing (assumption 10). -/
def recordFault (f : Fault) (s : State) : State := { s with fault := some f }

/-- The code of a cause (R201). -/
def causeCode : BusCause → Nat
  | .badSize => 1
  | .misaligned => 2
  | .unmapped => 3
  | .roWrite => 4
  | .notReady => 5

/-! ### Steps of a machine that may be quiescent -/

/-- A step that happens only while no fault is recorded: a state with a fault recorded is quiescent
(60_exceptions.md R206), so there it leaves the state as it is (assumption 10). -/
def live (f : State → State) (s : State) : Host.Outcome State Fault Refusal :=
  match s.fault with
  | none => .next (f s)
  | some _ => .next s

/-! ### Reset -/

/-- The reset input (70_reset_and_hazards.md R230, R231): every element at its reset value; the fault record is not
cleared (10_state.md R36), and what the host has received and what happens next are no state of the engine. -/
def resetInput (s : State) : State :=
  { State.reset with fault := s.fault, turns := s.turns, responses := s.responses }

end Sys2Proof.Machine
end

