-- ==== Sys2Proof/Machine/Operands.lean ====
section
/-! DEFINITION. The operands: the window's regions, admission of an access (20_memory.md), the message words
(42_compression.md R130) and the digest views (43_digest.md). -/

namespace Sys2Proof.Machine

/-! ### The window -/

/-- The regions of the window (20_memory.md R52). -/
inductive Region where
  | ctrl
  | status
  | block
  | digestBytes
  | digestHex
  | unmapped
  deriving DecidableEq, Repr

/-- The region of an offset (R52). -/
def region (off : BitVec 8) : Region :=
  if off.toNat < 0x04 then .ctrl
  else if off.toNat < 0x08 then .status
  else if off.toNat < 0x40 then .unmapped
  else if off.toNat < 0x80 then .block
  else if off.toNat < 0x90 then .digestBytes
  else if off.toNat < 0xA0 then .unmapped
  else if off.toNat < 0xC0 then .digestHex
  else .unmapped

/-- The direction of an access (R51). -/
inductive Dir where
  | read
  | write
  deriving DecidableEq, Repr

/-- op[0] of a descriptor (30_encoding.md R74). -/
def opDir (op : BitVec 3) : Dir := if op.getLsbD 0 then .write else .read

/-- The size in bytes of a descriptor's size code op[2:1] (30_encoding.md R74). -/
def opSize (op : BitVec 3) : Nat := 2 ^ (op.extractLsb' 1 2).toNat

/-- The digest regions. -/
def Region.isDigest : Region → Bool
  | .digestBytes => true
  | .digestHex => true
  | _ => false

/-- CTRL and STATUS. -/
def Region.isControl : Region → Bool
  | .ctrl => true
  | .status => true
  | _ => false

/-- CheckAccess (20_memory.md R58): the first failing check decides; none is an admitted access. -/
def checkAccess (dir : Dir) (size : Nat) (off : BitVec 8) (done : Bool) : Option BusCause :=
  if ¬ (size = 1 ∨ size = 4) then some .badSize
  else if size = 4 ∧ off.extractLsb' 0 2 ≠ 0 then some .misaligned
  else if region off = .unmapped then some .unmapped
  else if (region off).isControl ∧ size = 1 then some .badSize
  else if dir = .write ∧ (region off = .status ∨ (region off).isDigest) then some .roWrite
  else if dir = .read ∧ (region off).isDigest ∧ done = false then some .notReady
  else none

/-- Perform an access's effect if it is admitted, else end it with its bus error (44_commands.md R160). -/
def ifAdmitted (dir : Dir) (size : Nat) (off : BitVec 8) (effect : State → State) (s : State) : State :=
  match checkAccess dir size off s.done with
  | some c => busError c s
  | none => effect s

/-- The index of an offset in the block buffer: m[off - 0x40]. -/
def blockIndex (off : BitVec 8) : Nat := off.toNat - 0x40

/-! ### The message words -/

/-- X[k] (42_compression.md R130): bytes 4k..4k+3, the lowest index least significant. -/
def messageWord (m : Memory) (k : BitVec 4) : Word :=
  packWord (storedByte m (4 * k.toNat)) (storedByte m (4 * k.toNat + 1))
    (storedByte m (4 * k.toNat + 2)) (storedByte m (4 * k.toNat + 3))

/-- The block bytes a 4-byte read at index `i` returns, none if one of them is unwritten (44_commands.md R165). -/
def blockReadWord (m : Memory) (i : Nat) : Option Word :=
  match blockRead m i, blockRead m (i + 1), blockRead m (i + 2), blockRead m (i + 3) with
  | some b0, some b1, some b2, some b3 => some (packWord b0 b1 b2 b3)
  | _, _, _, _ => none

/-! ### The digest views -/

/-- W0..W3 = A, B, C, D (43_digest.md R150). -/
def chainWord (h : Quad) (w : Nat) : Word :=
  match w with
  | 0 => h.a
  | 1 => h.b
  | 2 => h.c
  | _ => h.d

/-- d[n], n in 0..15 (R150): byte n mod 4, least significant first, of word n div 4. -/
def digestByte (h : Quad) (n : Nat) : Byte := byteLane (chainWord h (n / 4)) (n % 4)

/-- hexchar (R152). -/
def hexchar (v : BitVec 4) : Byte :=
  if v.toNat < 10 then BitVec.ofNat 8 (0x30 + v.toNat) else BitVec.ofNat 8 (0x61 + (v.toNat - 10))

/-- h[n], n in 0..31 (R151): the high nibble of a byte first. -/
def hexByte (h : Quad) (n : Nat) : Byte :=
  if n % 2 = 0 then hexchar ((digestByte h (n / 2)).extractLsb' 4 4)
  else hexchar ((digestByte h (n / 2)).extractLsb' 0 4)

/-- The digest string, 32 characters (R155). -/
def digestString (h : Quad) : List Byte := (List.range 32).map (hexByte h)

end Sys2Proof.Machine
end

