-- ==== Sys2Proof/Machine/Compression.lean ====
section
/-! DEFINITION. The datapath: one round, the accumulate step, and the compression function they add up to
(42_compression.md R131 to R135). -/

namespace Sys2Proof.Machine

/-- One round on the working registers (R132), all four read before any is written. -/
def roundRegs (x : BitVec 4 → Word) (j : BitVec 6) (w : Quad) : Quad :=
  let f := roundFunction (selOf j) w.b w.c w.d
  let sum := add32 (add32 (add32 f (x (messageIndex j))) (roundConstant j)) w.a
  let t := add32 (rotateLeft sum (shiftAmount (selOf j) (colOf j)).toNat) w.b
  ⟨w.d, t, w.b, w.c⟩

/-- The four additions of the accumulate step (R133). -/
def Quad.add (h w : Quad) : Quad := ⟨add32 h.a w.a, add32 h.b w.b, add32 h.c w.c, add32 h.d w.d⟩

/-- The first `n` rounds (R135). -/
def rounds (x : BitVec 4 → Word) : Nat → Quad → Quad
  | 0, w => w
  | n + 1, w => roundRegs x (BitVec.ofNat 6 n) (rounds x n w)

/-- Compress(H, M) (R135), the block given by its message words. -/
def compress (h : Quad) (x : BitVec 4 → Word) : Quad := h.add (rounds x 64 h)

/-- The round index while j < 64: j[5:0]. -/
def roundIndex (s : State) : BitVec 6 := s.j.extractLsb' 0 6

/-- RoundStep (R132). -/
def roundStep (s : State) : State :=
  { s with work := roundRegs (messageWord s.block) (roundIndex s) s.work, j := s.j + 1 }

/-- AccumulateStep (R133). DESIGN CHOICE: the working registers keep the last round's values; the spec leaves open what they
hold between blocks (93_implementation_defined.md U3; assumption 18). -/
def accumulateStep (s : State) : State :=
  { s with chain := s.chain.add s.work, j := 0, busy := false, done := s.last }

/-- The engine's next step is a round whose selector is `sel` (R132, R134, 30_encoding.md R75). -/
def roundEnabled (sel : BitVec 2) (s : State) : Bool :=
  s.busy && decide (s.j.toNat < 64) && decide (selOf (roundIndex s) = sel)

/-- The round operation of one selector code: the round step it selects; in a quiescent state nothing happens
(60_exceptions.md R206), and where the engine's next step is no such round the spec gives no effect (assumption 6). -/
def roundOperation (sel : BitVec 2) (s : State) : Host.Outcome State Fault Refusal :=
  match s.fault with
  | some _ => .next s
  | none => if roundEnabled sel s then .next (roundStep s) else .refused .roundNotEnabled

end Sys2Proof.Machine
end

