-- ==== Sys2Proof/Machine/Flags.lean ====
section
/-! DEFINITION. The STATUS word (10_state.md R42). The engine has no arithmetic flags (40_primitives.md). -/

namespace Sys2Proof.Machine

/-- A flag as one bit of a word. -/
def flagBit (b : Bool) : BitVec 1 := BitVec.ofBool b

/-- STATUS = {27'b0, ERR_SEQ, ERR_BUSY, ERR_CMD, DONE, BUSY} (R42). -/
def statusWord (s : State) : Word :=
  (0 : BitVec 27) ++ flagBit s.errSeq ++ flagBit s.errBusy ++ flagBit s.errCmd ++ flagBit s.done ++ flagBit s.busy

/-- STATUS[4:2] = 0: no write since reset was dropped (60_exceptions.md R207, R218). -/
def noErrorBits (s : State) : Bool := !s.errSeq && !s.errBusy && !s.errCmd

end Sys2Proof.Machine
end

