-- ==== Sys2Proof/Machine/Control.lean ====
section
/-! DEFINITION. The CTRL commands (44_commands.md R161 to R164). -/

namespace Sys2Proof.Machine

/-- The first check of every CTRL write (R161): while BUSY = 1 it is dropped, whatever the word. -/
def ctrlWhenIdle (command : State → State) (s : State) : State :=
  if s.busy then raiseErrBusy s else command s

/-- Nop (R162): nothing changes; the host receives the normal response. -/
def doNop (s : State) : State := respond .ok s

/-- Init (R163). -/
def doInit (s : State) : State := respond .ok { s with chain := iv, done := false }

/-- StartBlock (42_compression.md R131). -/
def startBlock (last : Bool) (s : State) : State :=
  if blockComplete s.block then
    respond .ok { s with work := s.chain, j := 0, last := last, busy := true }
  else recordFault .unwrittenBlockByte s

/-- A legal COMPRESS with BUSY = 0 (R161, R164): ErrSeq if DONE = 1, else StartBlock. -/
def doCompress (last : Bool) (s : State) : State :=
  if s.done then raiseErrSeq s else startBlock last s

/-- What a CTRL word commands with BUSY = 0 (R161). -/
def command : CtrlCmd → State → State
  | .illegal => raiseErrCmd
  | .nop => doNop
  | .init => doInit
  | .compress last => doCompress last

/-- CtrlWrite (R161). -/
def ctrlWrite (w : Word) (s : State) : State := ctrlWhenIdle (command (decodeCtrl w)) s

/-- NOP (R162). -/
def execNop (s : State) : Host.Outcome State Fault Refusal := live (ctrlWhenIdle doNop) s

/-- INIT (R163). -/
def execInit (s : State) : Host.Outcome State Fault Refusal := live (ctrlWhenIdle doInit) s

/-- COMPRESS (R164). -/
def execCompress (last : Bool) (s : State) : Host.Outcome State Fault Refusal :=
  live (ctrlWhenIdle (doCompress last)) s

end Sys2Proof.Machine
end

