-- ==== Sys2Proof/Machine/Bus.lean ====
section
/-! DEFINITION. The register accesses (44_commands.md R165 to R169). Each effect is the rule's, after CheckAccess has
admitted the access; in a region that CheckAccess never admits the effect is that region's bus error again. -/

namespace Sys2Proof.Machine

/-- BlockStore (R169): dropped while BUSY = 1, else every byte is stored and its written flag set. -/
def blockStore (i : Nat) (bytes : List Byte) (s : State) : State :=
  if s.busy then raiseErrBusy s
  else respond .ok { s with block := blockWriteBytes s.block i bytes }

/-- A read of BLOCK: the value, or the fault record of an unwritten byte (60_exceptions.md R206). -/
def blockLoad (v : Option Response) (s : State) : State :=
  match v with
  | some r => respond r s
  | none => recordFault .unwrittenBlockRead s

/-- The effect of an admitted RD32 (R165). -/
def load32 (off : BitVec 8) (s : State) : State :=
  match region off with
  | .ctrl => respond (.data32 0x00000000) s
  | .status => respond (.data32 (statusWord s)) s
  | .block => blockLoad ((blockReadWord s.block (blockIndex off)).map .data32) s
  | .digestBytes =>
    let n := off.toNat - 0x80
    respond (.data32 (packWord (digestByte s.chain n) (digestByte s.chain (n + 1))
      (digestByte s.chain (n + 2)) (digestByte s.chain (n + 3)))) s
  | .digestHex =>
    let n := off.toNat - 0xA0
    respond (.data32 (packWord (hexByte s.chain n) (hexByte s.chain (n + 1))
      (hexByte s.chain (n + 2)) (hexByte s.chain (n + 3)))) s
  | .unmapped => busError .unmapped s

/-- The effect of an admitted RD8 (R166). -/
def load8 (off : BitVec 8) (s : State) : State :=
  match region off with
  | .ctrl => busError .badSize s
  | .status => busError .badSize s
  | .block => blockLoad ((blockRead s.block (blockIndex off)).map .data8) s
  | .digestBytes => respond (.data8 (digestByte s.chain (off.toNat - 0x80))) s
  | .digestHex => respond (.data8 (hexByte s.chain (off.toNat - 0xA0))) s
  | .unmapped => busError .unmapped s

/-- The effect of an admitted WR32 (R167). -/
def store32 (off : BitVec 8) (v : Word) (s : State) : State :=
  match region off with
  | .ctrl => ctrlWrite v s
  | .status => busError .roWrite s
  | .block => blockStore (blockIndex off) (wordBytes v) s
  | .digestBytes => busError .roWrite s
  | .digestHex => busError .roWrite s
  | .unmapped => busError .unmapped s

/-- The effect of an admitted WR8 (R168). -/
def store8 (off : BitVec 8) (v : Byte) (s : State) : State :=
  match region off with
  | .ctrl => busError .badSize s
  | .status => busError .badSize s
  | .block => blockStore (blockIndex off) [v] s
  | .digestBytes => busError .roWrite s
  | .digestHex => busError .roWrite s
  | .unmapped => busError .unmapped s

/-- RD8 (R166). -/
def execRd8 (off : BitVec 8) (s : State) : Host.Outcome State Fault Refusal :=
  live (ifAdmitted .read 1 off (load8 off)) s

/-- WR8 (R168). -/
def execWr8 (off : BitVec 8) (v : Byte) (s : State) : Host.Outcome State Fault Refusal :=
  live (ifAdmitted .write 1 off (store8 off v)) s

/-- RD32 (R165). -/
def execRd32 (off : BitVec 8) (s : State) : Host.Outcome State Fault Refusal :=
  live (ifAdmitted .read 4 off (load32 off)) s

/-- WR32 (R167). -/
def execWr32 (off : BitVec 8) (v : Word) (s : State) : Host.Outcome State Fault Refusal :=
  live (ifAdmitted .write 4 off (store32 off v)) s

/-- A 2-byte or 8-byte transfer, which is no instruction (30_encoding.md R74): CheckAccess refuses its size. The effect
after admission is never reached and is that refusal again. -/
def badSizeAccess (a : Access) (s : State) : Host.Outcome State Fault Refusal :=
  live (ifAdmitted (opDir a.op) (opSize a.op) a.off (busError .badSize)) s

end Sys2Proof.Machine
end

