-- ==== Sys2Proof/Machine/Rounds.lean ====
section
/-! DEFINITION. The four RSEL operations (30_encoding.md R75; 40_primitives.md R105 to R108): each code selects the round
function, the message-index rule and the shift group of one round step (42_compression.md R132). -/

namespace Sys2Proof.Machine

/-- F, sel = 00: rounds 0..15 (R105). -/
def execRoundF (s : State) : Host.Outcome State Fault Refusal := roundOperation 0b00 s

/-- G, sel = 01: rounds 16..31 (R106). -/
def execRoundG (s : State) : Host.Outcome State Fault Refusal := roundOperation 0b01 s

/-- H, sel = 10: rounds 32..47 (R107). -/
def execRoundH (s : State) : Host.Outcome State Fault Refusal := roundOperation 0b10 s

/-- I, sel = 11: rounds 48..63 (R108). -/
def execRoundI (s : State) : Host.Outcome State Fault Refusal := roundOperation 0b11 s

end Sys2Proof.Machine
end

