-- ==== Sys2Proof/Machine/Dispatch.lean ====
section
/-! DEFINITION. One arm per constructor of Instr. -/

namespace Sys2Proof.Machine

def exec (i : Instr) (s : State) : Host.Outcome State Fault Refusal :=
  match i with
  | .nop => Sys2Proof.Machine.execNop s
  | .init => Sys2Proof.Machine.execInit s
  | .compress last => Sys2Proof.Machine.execCompress last s
  | .rd8 off => Sys2Proof.Machine.execRd8 off s
  | .wr8 off v => Sys2Proof.Machine.execWr8 off v s
  | .rd32 off => Sys2Proof.Machine.execRd32 off s
  | .wr32 off v => Sys2Proof.Machine.execWr32 off v s
  | .roundF => Sys2Proof.Machine.execRoundF s
  | .roundG => Sys2Proof.Machine.execRoundG s
  | .roundH => Sys2Proof.Machine.execRoundH s
  | .roundI => Sys2Proof.Machine.execRoundI s

end Sys2Proof.Machine
end

