-- ==== Sys2Proof/Machine/Agents.lean ====
section
/-! DEFINITION. The two agents and the reset input (00_scope.md R13, 42_compression.md R134, 44_commands.md R160,
70_reset_and_hazards.md R230): what one turn does. -/

namespace Sys2Proof.Machine

/-- EngineStep (42_compression.md R134): no step while BUSY = 0; a round, through its selector, while j < 64; else the
accumulate step. A state with a fault recorded takes no step (60_exceptions.md R206). -/
def engineTurn (s : State) : Host.Outcome State Fault Refusal :=
  match s.fault with
  | some _ => .next s
  | none =>
    if s.busy then
      if s.j.toNat < 64 then exec (decodeRsel (selOf (roundIndex s))) s else .next (accumulateStep s)
    else .next s

/-- One host step (44_commands.md R160): the access's instruction, or the bus error of a transfer of another size. -/
def hostTurn (a : Access) (s : State) : Host.Outcome State Fault Refusal :=
  match decode (.bus a.op a.off a.data) with
  | .ok i => exec i s
  | .error _ => badSizeAccess a s

/-- What a turn does. -/
def runTurn (t : Turn) (s : State) : Host.Outcome State Fault Refusal :=
  match t with
  | .host a => hostTurn a s
  | .engine => engineTurn s
  | .reset => .next (resetInput s)

/-- One step: the first of the coming turns; when there is none, the engine goes on by itself
(70_reset_and_hazards.md R239; assumption 4). -/
def nextTurn (s : State) : Host.Outcome State Fault Refusal :=
  match s.turns with
  | [] => engineTurn s
  | t :: ts => runTurn t { s with turns := ts }

/-- `s` with an item as what runs next: an item the bus carries becomes the host's next access; a round selector
becomes the engine's next step, with BUSY = 1 and j the first round of its group (assumption 11). -/
def placeItem (s : State) (it : Item) : State :=
  match carrier it, it with
  | some a, _ => { s with turns := .host a :: s.turns }
  | none, .rsel sel => { s with turns := .engine :: s.turns, busy := true, j := BitVec.ofNat 7 (16 * sel.toNat) }
  | none, _ => s

/-- `s` with a word of the opcode table as what runs next; unchanged for a word the table has no width for. -/
def placeTableWord (s : State) (nbits w : Nat) : State :=
  match tableItem nbits w with
  | some it => placeItem s it
  | none => s

end Sys2Proof.Machine
end

