-- ==== Sys2Proof/Machine/HostProgram.lean ====
section
/-! DEFINITION. Host programs (30_encoding.md R77, R78), padding (45_host_padding.md R191 to R194) and the host sequence
(R195). No step of the engine calls them: padding binds the host, not the engine (R190). How a program runs beside the
engine is Machine/HostRun.lean. -/

namespace Sys2Proof.Machine

/-! ### Accesses (30_encoding.md R77) -/

/-- RD8 off. -/
def rd8Access (off : Nat) : Access := ⟨0b000, BitVec.ofNat 8 off, 0⟩

/-- WR8 off, v. -/
def wr8Access (off : Nat) (v : Byte) : Access := ⟨0b001, BitVec.ofNat 8 off, v.setWidth 32⟩

/-- RD32 off. -/
def rd32Access (off : Nat) : Access := ⟨0b100, BitVec.ofNat 8 off, 0⟩

/-- WR32 off, v. -/
def wr32Access (off : Nat) (v : Word) : Access := ⟨0b101, BitVec.ofNat 8 off, v⟩

/-! ### Host programs and pseudo-instructions (30_encoding.md R77, R78) -/

/-- One operation of a host program: an access, or the loop POLL. -/
inductive HostOp where
  /-- One access. -/
  | access (a : Access)
  /-- POLL: read STATUS until the result has bit 0 = 0. How many reads that takes is the run's (Machine/HostRun.lean). -/
  | poll
  deriving DecidableEq, Repr

/-- NOP. -/
def pseudoNop : List HostOp := [.access (wr32Access 0x00 0x00000000)]

/-- INIT. -/
def pseudoInit : List HostOp := [.access (wr32Access 0x00 0x00000001)]

/-- COMPRESS. -/
def pseudoCompress : List HostOp := [.access (wr32Access 0x00 0x00000002)]

/-- COMPRESS.LAST. -/
def pseudoCompressLast : List HostOp := [.access (wr32Access 0x00 0x00000006)]

/-- POLL. -/
def pseudoPoll : List HostOp := [.poll]

/-- LOADBLK b0 .. b63. -/
def pseudoLoadBlk (b : List Byte) : List HostOp :=
  (List.range 16).map fun i =>
    .access (wr32Access (0x40 + 4 * i)
      (packWord (b.getD (4 * i) 0) (b.getD (4 * i + 1) 0) (b.getD (4 * i + 2) 0) (b.getD (4 * i + 3) 0)))

/-- RDDIGEST. -/
def pseudoRdDigest : List HostOp := (List.range 4).map fun w => .access (rd32Access (0x80 + 4 * w))

/-- RDHEX. -/
def pseudoRdHex : List HostOp := (List.range 8).map fun q => .access (rd32Access (0xA0 + 4 * q))

/-! ### Padding (45_host_padding.md) -/

/-- z = (55 - n) mod 64, the number of zero bytes (R192). -/
def zeroBytes (n : Nat) : Nat := ((55 - (n : Int)) % 64).toNat

/-- The bit length modulo 2^64 as 8 bytes, least significant first (R193). -/
def lengthField (n : Nat) : List Byte :=
  (List.range 8).map fun q => (BitVec.ofNat 64 (8 * n)).extractLsb' (8 * q) 8

/-- The padded buffer of a message (R191 to R193). -/
def pad (msg : List Byte) : List Byte :=
  msg ++ [0x80] ++ List.replicate (zeroBytes msg.length) 0x00 ++ lengthField msg.length

/-- The number of blocks of a message of `n` bytes (R194). -/
def blockCount (n : Nat) : Nat := (n + 8) / 64 + 1

/-- The padded blocks M1..Mnb of a message (R195). -/
def paddedBlocks (msg : List Byte) : List (List Byte) :=
  (List.range (blockCount msg.length)).map fun t => ((pad msg).drop (64 * t)).take 64

/-- How a computation begins (R195): by INIT, or on the state that a reset left, by nothing. -/
inductive SequenceStart where
  | init
  | afterReset
  deriving DecidableEq, Repr

/-- How the digest is read (R195). -/
inductive DigestReading where
  | hex
  | bytes
  deriving DecidableEq, Repr

/-- The operations a computation begins with. -/
def startOps : SequenceStart → List HostOp
  | .init => pseudoInit
  | .afterReset => []

/-- The operations that read the digest. -/
def readingOps : DigestReading → List HostOp
  | .hex => pseudoRdHex
  | .bytes => pseudoRdDigest

/-- The operations of the blocks in order: POLL, LOADBLK, and COMPRESS, for the last block COMPRESS.LAST. -/
def blockOps : List (List Byte) → List HostOp
  | [] => []
  | [b] => pseudoPoll ++ pseudoLoadBlk b ++ pseudoCompressLast
  | b :: b' :: bs => pseudoPoll ++ pseudoLoadBlk b ++ pseudoCompress ++ blockOps (b' :: bs)

/-- The host sequence for one computation of a message (R195). -/
def hostSequence (start : SequenceStart) (reading : DigestReading) (msg : List Byte) : List HostOp :=
  startOps start ++ blockOps (paddedBlocks msg) ++ pseudoPoll ++ readingOps reading

/-! ### The digest of a message (42_compression.md R136, 43_digest.md R155) -/

/-- The message words of a block given as its 64 bytes. -/
def blockWords (b : List Byte) : BitVec 4 → Word := messageWord (blockWriteBytes [] 0 b)

/-- The chaining value after the padded blocks of a message (R136). -/
def chainOfMessage (msg : List Byte) : Quad :=
  (paddedBlocks msg).foldl (fun h b => compress h (blockWords b)) iv

/-- hash(msg), as 32 characters (R155). -/
def hashOfMessage (msg : List Byte) : List Byte := digestString (chainOfMessage msg)

/-- What the accesses that read the digest return for a message, in order (R195, 43_digest.md R150, R155): the 32
characters of `hash(msg)` in eight words, the first in bits 7:0, or the four words of the chaining value. -/
def digestWords : DigestReading → List Byte → List Word
  | .hex, msg =>
    let h := hashOfMessage msg
    (List.range 8).map fun q =>
      packWord (h.getD (4 * q) 0) (h.getD (4 * q + 1) 0) (h.getD (4 * q + 2) 0) (h.getD (4 * q + 3) 0)
  | .bytes, msg =>
    let h := chainOfMessage msg
    [h.a, h.b, h.c, h.d]

end Sys2Proof.Machine
end

