-- ==== Sys2Proof/Machine/HostRun.lean ====
section
/-! DEFINITION. A host at work on its program beside the engine: POLL as the loop of 30_encoding.md R78, and runs under an
order of moves that is free (20_memory.md R61) but for the engine's fairness (70_reset_and_hazards.md R239;
assumption 17). -/

namespace Sys2Proof.Machine

/-- The two agents (00_scope.md R13). -/
inductive Agent where
  | host
  | engine
  deriving DecidableEq, Repr

/-- A host at work and the engine it drives. Who moves is given from outside, so `engine.turns` is not read. -/
structure HostRun where
  /-- What the host has left to do. -/
  program : List HostOp
  /-- The values of the POLLs that have ended, newest first. -/
  polls   : List Word
  /-- The engine, with the responses the host has received. -/
  engine  : State
  deriving DecidableEq, Repr

/-- The next state of an outcome; `s` where it has none, which no turn of the machine has. -/
def nextOr (s : State) : Host.Outcome State Fault Refusal → State
  | .next t => t
  | .fault _ => s
  | .refused _ => s

/-- A turn as a function of the state. -/
def applyTurn (s : State) (u : Turn) : State := nextOr s (runTurn u s)

/-- What the access that led from `s` to `t` returned; none where a fault is recorded (assumption 10). -/
def accessResult (s t : State) : Option Response :=
  if t.responses.length = s.responses.length + 1 then t.responses.head? else none

/-- One read of POLL: it ends with a result whose bit 0 is 0, which is its value, and else is to be done again (R78). -/
def pollRead (rest : List HostOp) (r : HostRun) : HostRun :=
  let t := applyTurn r.engine (.host (rd32Access 0x04))
  match accessResult r.engine t with
  | some (.data32 v) =>
    if v.getLsbD 0 then { r with engine := t } else { program := rest, polls := v :: r.polls, engine := t }
  | _ => { r with engine := t }

/-- The host's move: the next access of its program; nothing when the program is done. -/
def hostMove (r : HostRun) : HostRun :=
  match r.program with
  | [] => r
  | .access a :: rest => { r with program := rest, engine := applyTurn r.engine (.host a) }
  | .poll :: rest => pollRead rest r

/-- The engine's move (42_compression.md R134). -/
def engineMove (r : HostRun) : HostRun := { r with engine := applyTurn r.engine .engine }

/-- One move of an agent. -/
def move (r : HostRun) : Agent → HostRun
  | .host => hostMove r
  | .engine => engineMove r

/-- Moves in an order. -/
def runMoves (r : HostRun) (moves : List Agent) : HostRun := moves.foldl move r

/-- The first `n` moves of an endless order. -/
def runAgents (order : Nat → Agent) (n : Nat) (r : HostRun) : HostRun := runMoves r ((List.range n).map order)

/-- The first `n` turns of an endless order of turns: every behaviour of every host, one that never ends and one that
chooses by its responses among them, and every reset. -/
def runTurns (order : Nat → Turn) (n : Nat) (s : State) : State := ((List.range n).map order).foldl applyTurn s

/-- Weak fairness (R239): an agent whose move is always enabled moves again and again. -/
def Fair {α : Type} (agent : α) (order : Nat → α) : Prop := ∀ n, ∃ m, n ≤ m ∧ order m = agent

end Sys2Proof.Machine
end

