-- ==== Sys2Proof/Machine/Platform.lean ====
section
/-! DEFINITION. A platform of N_ENGINES independent engines, each with its window at its own ENGINE_BASE
(20_memory.md R50, R65; 60_exceptions.md R214). Both parameters are open (00_scope.md R9): they are the list's length and
the slots' bases (assumption 12). -/

namespace Sys2Proof.Machine

/-- One instance: ENGINE_BASE is `256 * baseIndex`, a multiple of 256 (R50). -/
structure Slot where
  baseIndex : Nat
  engine    : State
  deriving DecidableEq, Repr

/-- The instances of a platform. -/
abbrev Platform := List Slot

/-- ENGINE_BASE of an instance. -/
def Slot.base (sl : Slot) : Nat := 256 * sl.baseIndex

/-- At least one engine (R9), each window at a base of its own (R65). -/
def platformWellFormed (p : Platform) : Bool :=
  !p.isEmpty && decide (p.map Slot.baseIndex).Nodup

/-- The window offset of a host address in the window that holds it: address ENGINE_BASE + off (R50). -/
def windowOffset (addr : Nat) : BitVec 8 := BitVec.ofNat 8 addr

/-- An instance whose window holds the address has the access as what happens to it next; no other is reached. -/
def slotAccess (addr : Nat) (op : BitVec 3) (data : Word) (sl : Slot) : Slot :=
  if addr / 256 = sl.baseIndex then
    { sl with engine := { sl.engine with turns := .host ⟨op, windowOffset addr, data⟩ :: sl.engine.turns } }
  else sl

/-- A host access at a host address. -/
def platformAccess (addr : Nat) (op : BitVec 3) (data : Word) (p : Platform) : Platform :=
  p.map (slotAccess addr op data)

/-- One instance takes a step; an instance whose step gives no next state stays as it is. -/
def slotStep (sl : Slot) : Slot :=
  match step sl.engine with
  | .next s => { sl with engine := s }
  | .fault _ => sl
  | .refused _ => sl

/-- Instance number `i` of the platform takes a step. -/
def platformStep (i : Nat) (p : Platform) : Platform := p.modify i slotStep

end Sys2Proof.Machine
end

