-- ==== Sys2Proof/Safety.lean ====
section
/-! DEFINITION. What claims are stated in terms of: the phases, the invariants of every reachable state, a clean run and
the end of a run. -/

namespace Sys2Proof.Machine

/-- The phase of the engine (10_state.md R37). -/
inductive Phase where
  | idle
  | round (j : BitVec 6)
  | accumulate
  deriving DecidableEq, Repr

/-- The phase as a function of (BUSY, j) (R37). -/
def phase (s : State) : Phase :=
  if s.busy then if s.j.toNat < 64 then .round (roundIndex s) else .accumulate else .idle

/-- The invariant: the three clauses of 10_state.md R38, and two of the model's form: the block buffer is in canonical
form, and while BUSY = 1 all 64 block bytes are written (42_compression.md R131). -/
abbrev EngineInv (s : State) : Prop :=
  (s.busy = false → s.j = 0) ∧
  (s.done = true → s.busy = false) ∧
  s.j.toNat ≤ 64 ∧
  Memory.wf s.block = true ∧
  (s.busy = true → blockComplete s.block = true)

/-- The datapath's invariant: while BUSY = 1 the working registers are what the rounds so far make of A..D and the block
(42_compression.md R131, R132, R135). -/
abbrev DatapathInv (s : State) : Prop :=
  s.busy = true → s.j.toNat ≤ 64 ∧ s.work = rounds (messageWord s.block) s.j.toNat s.chain

/-- An error response (60_exceptions.md R202). -/
def Response.isError : Response → Bool
  | .busError _ => true
  | .ok => false
  | .data8 _ => false
  | .data32 _ => false

/-- What the host sees of a response: an error without its cause (60_exceptions.md R202). -/
inductive HostView where
  | ok
  | data8 (v : Byte)
  | data32 (v : Word)
  | error
  deriving DecidableEq, Repr

/-- The host's view of a response. -/
def hostView : Response → HostView
  | .ok => .ok
  | .data8 v => .data8 v
  | .data32 v => .data32 v
  | .busError _ => .error

/-- A clean run, read off its last state (60_exceptions.md R218). -/
def cleanRun (s : State) : Bool :=
  s.responses.all (fun r => !r.isError) && noErrorBits s && s.fault.isNone

/-- A final state: the host's last access is done, BUSY = 0 and no fault is recorded (70_reset_and_hazards.md R240). -/
def finalState (s : State) : Bool :=
  !s.turns.any (fun t => match t with | .host _ => true | .engine => false | .reset => false)
    && !s.busy && s.fault.isNone

end Sys2Proof.Machine
end

