-- ==== Sys2Proof/Certificates/Slice0/Obligations.lean ====
section
/-! DEFINITION. The statements about the machine. Each docstring names the rules of spec/ it formalises. -/

open Sys2Proof Sys2Proof.Machine

/-! ### Decoding and the step -/

/-- 30_encoding.md R70 to R75: decoding the words of an instruction gives it back, with every operand, and so does
decoding the host access that carries them. The model's own in it: that a WR32 of a legal CTRL word to offset 0x00 decodes
to the command and is ill-formed as a WR32 (assumption 7; WriteOfCtrlWordIsItsCommand says that both have one effect), and
that a 1-byte write's byte is the low byte of the access's data (assumption 9). -/
def Obligations.DecodeOfEncodeIsIdentity : Prop :=
  ∀ i : Instr, i.wellFormed = true →
    decode (encode i) = .ok i ∧
    ∀ a : Access, carrier (encode i) = some a → decode (.bus a.op a.off a.data) = .ok i

/-- The model's own (assumption 7): what the decoder gives is well-formed, so a WR32 of a legal CTRL word to offset 0x00 is
never its answer but always the command; 30_encoding.md R70 and R78 give the one access both spellings and choose neither. -/
def Obligations.DecodedInstructionIsWellFormed : Prop :=
  ∀ (it : Item) (i : Instr), decode it = .ok i → i.wellFormed = true

/-- 30_encoding.md R72, R74, R75: no two words of a format share an instruction, but for the data of a read and the upper
data bits of a 1-byte write, which no access uses (assumption 9), and the CTRL words, which a WR32 carries too (R78). -/
def Obligations.WordsOfAFormatHaveOneMeaning : Prop :=
  (∀ w w' i, decode (.ctrl w) = .ok i → decode (.ctrl w') = .ok i → w = w') ∧
  (∀ sel sel' i, decode (.rsel sel) = .ok i → decode (.rsel sel') = .ok i → sel = sel') ∧
  (∀ op op' off off' data data' i, decode (.bus op off data) = .ok i → decode (.bus op' off' data') = .ok i →
    op = op' ∧ off = off' ∧
    (op = 0b001 → data.extractLsb' 0 8 = data'.extractLsb' 0 8) ∧ (op = 0b101 → data = data'))

/-- 30_encoding.md R72. -/
def Obligations.CtrlWordLegalExactlyFour : Prop :=
  (∀ w : Word, decodeCtrl w ≠ .illegal ↔
    w = 0x00000000 ∨ w = 0x00000001 ∨ w = 0x00000002 ∨ w = 0x00000006) ∧
  decodeCtrl 0x00000000 = .nop ∧ decodeCtrl 0x00000001 = .init ∧
  decodeCtrl 0x00000002 = .compress false ∧ decodeCtrl 0x00000006 = .compress true

/-- 30_encoding.md R72 to R75, R79: words written out from the spec's encodings decode to what they stand for; the three
illegal words of R79 and a 2-byte transfer are rejected by name. -/
def Obligations.SpecWordsDecode : Prop :=
  decode (.ctrl 0x00000000) = .ok .nop ∧
  decode (.ctrl 0x00000001) = .ok .init ∧
  decode (.ctrl 0x00000006) = .ok (.compress true) ∧
  decode (.ctrl 0x00000005) = .error (.illegalCtrl 0x00000005) ∧
  decode (.ctrl 0x80000001) = .error (.illegalCtrl 0x80000001) ∧
  decode (.ctrl 0x00000003) = .error (.illegalCtrl 0x00000003) ∧
  decode (.bus 0b000 0xA1 0) = .ok (.rd8 0xA1) ∧
  decode (.bus 0b001 0x7F 0) = .ok (.wr8 0x7F 0x00) ∧
  decode (.bus 0b100 0x80 0) = .ok (.rd32 0x80) ∧
  decode (.bus 0b101 0x40 0x80636261) = .ok (.wr32 0x40 0x80636261) ∧
  decode (.bus 0b010 0x40 0) = .error (.badSize 0b010) ∧
  decode (.rsel 0b10) = .ok .roundH

/-- 00_scope.md R13, 44_commands.md R160, 42_compression.md R134, 70_reset_and_hazards.md R230: a step takes the first
turn. A host access that decodes to an instruction is `exec` of it; one that does not is refused as BAD_SIZE; an engine
turn of a round is `exec` of the instruction its selector decodes to; a reset turn is the reset input; with no turn left
the engine moves (assumption 4). Nothing is done around `exec` but the turn's taking off. -/
def Obligations.StepRunsDecodedInstruction : Prop :=
  ∀ (s : State) (ts : List Turn),
    (∀ a i, s.turns = .host a :: ts → decode (.bus a.op a.off a.data) = .ok i →
      step s = exec i { s with turns := ts }) ∧
    (∀ a r, s.turns = .host a :: ts → decode (.bus a.op a.off a.data) = .error r → s.fault = none →
      step s = .next { s with turns := ts, responses := .busError .badSize :: s.responses }) ∧
    (∀ i, s.turns = .engine :: ts → s.fault = none → s.busy = true → s.j.toNat < 64 →
      decode (.rsel (BitVec.ofNat 2 (s.j.toNat / 16))) = .ok i → step s = exec i { s with turns := ts }) ∧
    (s.turns = .reset :: ts → step s = .next (resetInput { s with turns := ts })) ∧
    (s.turns = [] → step s = engineTurn s)

/-- A word of the opcode table placed by `withFetchWord` is what the next step runs (assumptions 7, 8 and 11), for one word
of every row. -/
def Obligations.PlacedTableWordRuns : Prop :=
  step (State.reset.withFetchWord 32 0) = exec .nop State.reset ∧
  step (State.reset.withFetchWord 32 1) = exec .init State.reset ∧
  step (State.reset.withFetchWord 32 2) = exec (.compress false) State.reset ∧
  step (State.reset.withFetchWord 8 0) = exec (.rd8 0) State.reset ∧
  step (State.reset.withFetchWord 8 1) = exec (.wr8 0 0) State.reset ∧
  step (State.reset.withFetchWord 8 4) = exec (.rd32 0) State.reset ∧
  step (State.reset.withFetchWord 8 5) = exec .nop State.reset ∧
  step (State.reset.withFetchWord 2 0) = exec .roundF { State.reset with busy := true, j := 0 } ∧
  step (State.reset.withFetchWord 2 1) = exec .roundG { State.reset with busy := true, j := 16 } ∧
  step (State.reset.withFetchWord 8 2) = exec .roundH { State.reset with busy := true, j := 32 } ∧
  step (State.reset.withFetchWord 8 3) = exec .roundI { State.reset with busy := true, j := 48 }

/-! ### Reset and the invariants -/

/-- 70_reset_and_hazards.md R230, R231, 10_state.md R36: what the reset input leaves, from any state, and that power-on
leaves the same. The working registers and the block's contents are unspecified there and nothing is said of them, but that
no written flag is 1. The fault record is not cleared. That the reset leaves the coming turns and the responses, which are
no state of the engine, is the model's own (assumption 14). -/
def Obligations.ResetLeavesResetValues : Prop :=
  (∀ (s : State) (ts : List Turn), s.turns = .reset :: ts →
    ∃ t, step s = .next t ∧
      t.chain = ⟨0x67452301, 0xEFCDAB89, 0x98BADCFE, 0x10325476⟩ ∧ t.j = 0 ∧
      t.busy = false ∧ t.last = false ∧ t.done = false ∧
      t.errCmd = false ∧ t.errBusy = false ∧ t.errSeq = false ∧
      (∀ i, written t.block i = false) ∧ t.fault = s.fault ∧ statusWord t = 0x00000000 ∧
      t.turns = ts ∧ t.responses = s.responses) ∧
  State.reset.chain = ⟨0x67452301, 0xEFCDAB89, 0x98BADCFE, 0x10325476⟩ ∧ State.reset.j = 0 ∧
  State.reset.busy = false ∧ State.reset.last = false ∧ State.reset.done = false ∧
  State.reset.errCmd = false ∧ State.reset.errBusy = false ∧ State.reset.errSeq = false ∧
  (∀ i, written State.reset.block i = false) ∧ State.reset.fault = none ∧
  statusWord State.reset = 0x00000000

/-- 10_state.md R38 at power-on, with the canonical form of the block buffer. -/
def Obligations.PowerOnStateMeetsInvariant : Prop := EngineInv State.reset

/-- 10_state.md R38: BUSY = 0 implies j = 0, DONE = 1 implies BUSY = 0, j is at most 64; and of the model's form: the
block buffer is canonical, and while BUSY = 1 every block byte is written (42_compression.md R131). Every step from every
state that meets them gives a state that meets them. -/
def Obligations.StepKeepsInvariant : Prop :=
  ∀ s t : State, EngineInv s → step s = .next t → EngineInv t

/-- 60_exceptions.md R200, R206, R209: no step of the machine ends in a fault or a refusal of the outcome type; what the
spec reports is in the next state. -/
def Obligations.StepAlwaysAnswersNext : Prop := ∀ s : State, ∃ t, step s = .next t

/-- 10_state.md R36, 60_exceptions.md R206: once a fault is recorded no step clears it and a state with it is not final. That
every step but a reset then leaves the engine and the host's responses as they are is the model's reading of R206's
quiescence (assumption 10). -/
def Obligations.FaultRecordIsPermanent : Prop :=
  ∀ (s t : State) (f : Fault), s.fault = some f → step s = .next t →
    t.fault = some f ∧ finalState s = false ∧
    (s.turns.head? ≠ some .reset → t = { s with turns := s.turns.tail })

/-- 60_exceptions.md R207: an error bit that is set stays set through every step but a reset, and a write to STATUS is
refused. -/
def Obligations.ErrorBitsAreSticky : Prop :=
  (∀ s t : State, step s = .next t → s.turns.head? ≠ some .reset →
    (s.errCmd = true → t.errCmd = true) ∧ (s.errBusy = true → t.errBusy = true) ∧
    (s.errSeq = true → t.errSeq = true)) ∧
  (∀ (s : State) (v : Word), s.fault = none →
    exec (.wr32 0x04 v) s = .next { s with responses := .busError .roWrite :: s.responses })

/-- 43_digest.md R154: while DONE = 1, a step that is neither a reset nor the access of an INIT keeps DONE and A..D, and
so every digest byte and character. -/
def Obligations.DigestIsStableWhileDone : Prop :=
  ∀ s t : State, EngineInv s → s.done = true → step s = .next t → s.turns.head? ≠ some .reset →
    (∀ a, s.turns.head? = some (.host a) → decode (.bus a.op a.off a.data) ≠ .ok .init) →
    t.done = true ∧ t.chain = s.chain ∧ (∀ n, digestByte t.chain n = digestByte s.chain n) ∧
      (∀ n, hexByte t.chain n = hexByte s.chain n)

/-- 10_state.md R39: while BUSY = 1 no step but a reset changes the block buffer, and the only change of A..D is the
accumulate step's, which ends the busy period. -/
def Obligations.BlockAndChainAreFixedWhileBusy : Prop :=
  ∀ s t : State, s.busy = true → step s = .next t → s.turns.head? ≠ some .reset →
    t.block = s.block ∧
    (t.chain = s.chain ∨ (t.busy = false ∧ t.chain = s.chain.add s.work ∧ ¬ s.j.toNat < 64))

/-! ### The compression of a block -/

/-- 42_compression.md R131 to R135: while BUSY = 1 the working registers are the first j rounds of A..D on the block, which
the reset state meets and every step from every such state keeps; and the step that ends the busy period, unless it is a
reset, leaves A..D = Compress(H, M) and DONE = L. -/
def Obligations.BusyWorkingRegistersAreRounds : Prop :=
  DatapathInv State.reset ∧
  ∀ s t : State, DatapathInv s → step s = .next t →
    DatapathInv t ∧
    (s.busy = true → t.busy = false → s.turns.head? ≠ some .reset →
      t.chain = compress s.chain (messageWord s.block) ∧ t.done = s.last)

/-- 42_compression.md R135: an accepted COMPRESS and its 65 engine steps, whatever host accesses interleave, leave
A..D = Compress(H, M), BUSY = 0, DONE = LAST and the block as it was. The accesses in between are arbitrary (`us` holds
no reset and 64 engine turns; the last turn is the 65th). -/
def Obligations.CompressionRunsToCompress : Prop :=
  ∀ (s : State) (last : Bool) (us : List Turn),
    s.fault = none → s.busy = false → s.done = false → blockComplete s.block = true →
    .reset ∉ us → us.count .engine = 64 →
    s.turns = .host ⟨0b101, 0x00, if last then 0x00000006 else 0x00000002⟩ :: (us ++ [.engine]) →
    ∃ t, Host.Core.run Sys2Proof.core s.turns.length s = .next t ∧
      t.chain = compress s.chain (messageWord s.block) ∧ t.busy = false ∧ t.done = last ∧
      t.block = s.block ∧ t.fault = none ∧ t.turns = [] ∧ t.errCmd = s.errCmd ∧ t.errSeq = s.errSeq

/-- 70_reset_and_hazards.md R239: while BUSY = 1, whatever accesses the host makes, the block is finished after finitely
many steps unless a reset intervenes. That the engine goes on when the host's turns are over is the model's form of the
spec's fairness (assumption 4). How many steps it takes is not said (R238). -/
def Obligations.BusyPeriodEnds : Prop :=
  ∀ s : State, EngineInv s → s.fault = none → s.busy = true → .reset ∉ s.turns →
    ∃ n t, Host.Core.run Sys2Proof.core n s = .next t ∧
      t.busy = false ∧ t.j = 0 ∧ t.done = s.last ∧ t.fault = none

/-- 70_reset_and_hazards.md R239: under every endless order of turns in which the engine moves again and again, with any
accesses between (a host that keeps accessing for ever, or chooses by its responses, among them), a busy period ends unless
a reset intervenes. An order as a function, given from outside, is the model's form (assumption 17). -/
def Obligations.BusyPeriodEndsUnderFairness : Prop :=
  ∀ (s : State) (order : Nat → Turn), EngineInv s → s.fault = none → s.busy = true →
    Fair .engine order → (∀ n, order n ≠ .reset) →
    ∃ n, (runTurns order n s).busy = false ∧ (runTurns order n s).j = 0 ∧ (runTurns order n s).done = s.last ∧
      (runTurns order n s).fault = none

/-- 40_primitives.md R105, 42_compression.md R132, 41_rom_tables.md R121, R122: F completes in rounds 0..15. -/
def Obligations.RoundFCompletes : Prop :=
  ∀ s : State, s.fault = none → s.busy = true → s.j.toNat < 16 →
    let f := (s.work.b &&& s.work.c) ||| ((s.work.b ^^^ 0xFFFFFFFF) &&& s.work.d)
    let x := messageWord s.block (BitVec.ofNat 4 (s.j.toNat % 16))
    let sum := f + x + tRom.getD s.j.toNat 0 + s.work.a
    ∃ r, rotl32 sum ([7, 12, 17, 22].getD (s.j.toNat % 4) 0) = some r ∧
      exec .roundF s = .next { s with
        work := ⟨s.work.d, r + s.work.b, s.work.b, s.work.c⟩, j := BitVec.ofNat 7 (s.j.toNat + 1) }

/-- 40_primitives.md R106, 42_compression.md R132, 41_rom_tables.md R121, R122: G completes in rounds 16..31. -/
def Obligations.RoundGCompletes : Prop :=
  ∀ s : State, s.fault = none → s.busy = true → 16 ≤ s.j.toNat → s.j.toNat < 32 →
    let f := (s.work.b &&& s.work.d) ||| (s.work.c &&& (s.work.d ^^^ 0xFFFFFFFF))
    let x := messageWord s.block (BitVec.ofNat 4 ((5 * s.j.toNat + 1) % 16))
    let sum := f + x + tRom.getD s.j.toNat 0 + s.work.a
    ∃ r, rotl32 sum ([5, 9, 14, 20].getD (s.j.toNat % 4) 0) = some r ∧
      exec .roundG s = .next { s with
        work := ⟨s.work.d, r + s.work.b, s.work.b, s.work.c⟩, j := BitVec.ofNat 7 (s.j.toNat + 1) }

/-- 40_primitives.md R107, 42_compression.md R132, 41_rom_tables.md R121, R122: H completes in rounds 32..47. -/
def Obligations.RoundHCompletes : Prop :=
  ∀ s : State, s.fault = none → s.busy = true → 32 ≤ s.j.toNat → s.j.toNat < 48 →
    let f := s.work.b ^^^ s.work.c ^^^ s.work.d
    let x := messageWord s.block (BitVec.ofNat 4 ((3 * s.j.toNat + 5) % 16))
    let sum := f + x + tRom.getD s.j.toNat 0 + s.work.a
    ∃ r, rotl32 sum ([4, 11, 16, 23].getD (s.j.toNat % 4) 0) = some r ∧
      exec .roundH s = .next { s with
        work := ⟨s.work.d, r + s.work.b, s.work.b, s.work.c⟩, j := BitVec.ofNat 7 (s.j.toNat + 1) }

/-- 40_primitives.md R108, 42_compression.md R132, 41_rom_tables.md R121, R122: I completes in rounds 48..63. -/
def Obligations.RoundICompletes : Prop :=
  ∀ s : State, s.fault = none → s.busy = true → 48 ≤ s.j.toNat → s.j.toNat < 64 →
    let f := s.work.c ^^^ (s.work.b ||| (s.work.d ^^^ 0xFFFFFFFF))
    let x := messageWord s.block (BitVec.ofNat 4 ((7 * s.j.toNat) % 16))
    let sum := f + x + tRom.getD s.j.toNat 0 + s.work.a
    ∃ r, rotl32 sum ([6, 10, 15, 21].getD (s.j.toNat % 4) 0) = some r ∧
      exec .roundI s = .next { s with
        work := ⟨s.work.d, r + s.work.b, s.work.b, s.work.c⟩, j := BitVec.ofNat 7 (s.j.toNat + 1) }

/-- The model's own (assumption 6): a round operation outside its own round is refused by name, because RoundStep's
precondition is BUSY = 1 and j < 64 and the selector is j[5:4] (42_compression.md R132, 30_encoding.md R75). -/
def Obligations.RoundOutsideItsTurnIsRefused : Prop :=
  ∀ s : State, s.fault = none →
    (¬ (s.busy = true ∧ s.j.toNat < 16) → exec .roundF s = .refused .roundNotEnabled) ∧
    (¬ (s.busy = true ∧ 16 ≤ s.j.toNat ∧ s.j.toNat < 32) → exec .roundG s = .refused .roundNotEnabled) ∧
    (¬ (s.busy = true ∧ 32 ≤ s.j.toNat ∧ s.j.toNat < 48) → exec .roundH s = .refused .roundNotEnabled) ∧
    (¬ (s.busy = true ∧ 48 ≤ s.j.toNat ∧ s.j.toNat < 64) → exec .roundI s = .refused .roundNotEnabled)

/-- 42_compression.md R134: the engine's step on an engine turn: none while BUSY = 0, a round while j < 64, else the
accumulate step (after which a..d are the model's choice, assumption 18). -/
def Obligations.EngineTurnIsEngineStep : Prop :=
  ∀ (s : State) (ts : List Turn), s.turns = .engine :: ts → s.fault = none →
    (s.busy = false → step s = .next { s with turns := ts }) ∧
    (s.busy = true → s.j.toNat < 64 → step s = .next (roundStep { s with turns := ts })) ∧
    (s.busy = true → s.j = 64 → step s = .next (accumulateStep { s with turns := ts }))

/-- 42_compression.md R133: A..D, j, BUSY and DONE after the accumulate step, and L and the block left as they were. That the
working registers keep the last round's values is the model's choice (assumption 18). -/
def Obligations.AccumulateStepClosesBlock : Prop :=
  ∀ (s : State) (ts : List Turn), s.turns = .engine :: ts → s.fault = none → s.busy = true → s.j = 64 →
    step s = .next { s with
      turns := ts
      chain := ⟨s.chain.a + s.work.a, s.chain.b + s.work.b, s.chain.c + s.work.c, s.chain.d + s.work.d⟩
      j := 0
      busy := false
      done := s.last }

/-- 60_exceptions.md R208: an engine turn raises nothing, whatever it does. -/
def Obligations.EngineTurnRaisesNothing : Prop :=
  ∀ s t : State, engineTurn s = .next t →
    t.errCmd = s.errCmd ∧ t.errBusy = s.errBusy ∧ t.errSeq = s.errSeq ∧ t.fault = s.fault ∧
    t.responses = s.responses ∧ t.block = s.block ∧ t.turns = s.turns ∧ t.last = s.last

/-! ### Primitives, ROMs, decoder and serializer -/

/-- 40_primitives.md R100, R101: the sum modulo 2^32; any order and any tree of additions gives the same, and the round's
four words give their whole sum reduced once. -/
def Obligations.Add32WrapsInAnyOrder : Prop :=
  (∀ x y : Word, (add32 x y).toNat = (x.toNat + y.toNat) % 2 ^ 32) ∧
  (∀ x y : Word, add32 x y = add32 y x) ∧
  (∀ x y z : Word, add32 (add32 x y) z = add32 x (add32 y z)) ∧
  (∀ f x t a : Word, (add32 (add32 (add32 f x) t) a).toNat = (f.toNat + x.toNat + t.toNat + a.toNat) % 2 ^ 32)

/-- 40_primitives.md R102: the formula and its bits for n in 1..31, its inverse, no value outside, and the amounts that
ever reach it. -/
def Obligations.Rotl32BitsAndDomain : Prop :=
  (∀ (x : Word) (n : Nat), 0 < n → n < 32 → ∃ r, rotl32 x n = some r ∧
    r.toNat = ((x.toNat <<< n) ||| (x.toNat >>> (32 - n))) % 2 ^ 32 ∧
    (∀ i, i < 32 → r.getLsbD i = x.getLsbD ((i + 32 - n) % 32)) ∧
    rotl32 r (32 - n) = some x) ∧
  (∀ (x : Word) (n : Nat), n = 0 ∨ 32 ≤ n → rotl32 x n = none) ∧
  (∀ j : BitVec 6, (shiftAmount (selOf j) (colOf j)).toNat ∈ [4, 5, 6, 7, 9, 10, 11, 12, 14, 15, 16, 17, 20, 21, 22, 23])

/-- 40_primitives.md R109: bit i of each round function is the truth table's entry at bits i of b, c and d. -/
def Obligations.RoundFunctionsFollowBitTable : Prop :=
  ∀ (b c d : Word) (i : Nat), i < 32 →
    let row := 4 * (b.getLsbD i).toNat + 2 * (c.getLsbD i).toNat + (d.getLsbD i).toNat
    (roundFunction 0b00 b c d).getLsbD i = [false, true, false, true, false, false, true, true].getD row false ∧
    (roundFunction 0b01 b c d).getLsbD i = [false, false, true, false, false, true, true, true].getD row false ∧
    (roundFunction 0b10 b c d).getLsbD i = [false, true, true, false, true, false, false, true].getD row false ∧
    (roundFunction 0b11 b c d).getLsbD i = [true, false, false, true, true, true, false, false].getD row false

/-- 41_rom_tables.md R120 to R123, R125: the round constant of every round, written out from the schedule table; the shift
amounts by group and column, all in 4..23; the message index of every round; each group reads every message word exactly
once. -/
def Obligations.ScheduleFollowsTables : Prop :=
  (∀ j : BitVec 6, some (roundConstant j) =
    ([0xD76AA478, 0xE8C7B756, 0x242070DB, 0xC1BDCEEE, 0xF57C0FAF, 0x4787C62A, 0xA8304613, 0xFD469501] ++
     [0x698098D8, 0x8B44F7AF, 0xFFFF5BB1, 0x895CD7BE, 0x6B901122, 0xFD987193, 0xA679438E, 0x49B40821] ++
     [0xF61E2562, 0xC040B340, 0x265E5A51, 0xE9B6C7AA, 0xD62F105D, 0x02441453, 0xD8A1E681, 0xE7D3FBC8] ++
     [0x21E1CDE6, 0xC33707D6, 0xF4D50D87, 0x455A14ED, 0xA9E3E905, 0xFCEFA3F8, 0x676F02D9, 0x8D2A4C8A] ++
     [0xFFFA3942, 0x8771F681, 0x6D9D6122, 0xFDE5380C, 0xA4BEEA44, 0x4BDECFA9, 0xF6BB4B60, 0xBEBFBC70] ++
     [0x289B7EC6, 0xEAA127FA, 0xD4EF3085, 0x04881D05, 0xD9D4D039, 0xE6DB99E5, 0x1FA27CF8, 0xC4AC5665] ++
     [0xF4292244, 0x432AFF97, 0xAB9423A7, 0xFC93A039, 0x655B59C3, 0x8F0CCC92, 0xFFEFF47D, 0x85845DD1] ++
     [0x6FA87E4F, 0xFE2CE6E0, 0xA3014314, 0x4E0811A1, 0xF7537E82, 0xBD3AF235, 0x2AD7D2BB, 0xEB86D391])[j.toNat]?) ∧
  (∀ j : BitVec 6, (shiftAmount (selOf j) (colOf j)).toNat =
    ([[7, 12, 17, 22], [5, 9, 14, 20], [4, 11, 16, 23], [6, 10, 15, 21]].getD (j.toNat / 16) []).getD (j.toNat % 4) 0) ∧
  (∀ sel col : BitVec 2, 4 ≤ (shiftAmount sel col).toNat ∧ (shiftAmount sel col).toNat ≤ 23) ∧
  (∀ j : BitVec 6, (messageIndex j).toNat =
    ([j.toNat % 16, (5 * j.toNat + 1) % 16, (3 * j.toNat + 5) % 16, (7 * j.toNat) % 16].getD (j.toNat / 16) 0)) ∧
  (∀ sel : BitVec 2, ∀ k : BitVec 4, ∃ j : BitVec 6, selOf j = sel ∧ messageIndex j = k ∧
    ∀ j' : BitVec 6, selOf j' = sel → messageIndex j' = k → j' = j)

/-- 42_compression.md R130: a message word of four written bytes. -/
def Obligations.MessageWordIsLittleEndian : Prop :=
  ∀ (m : Memory) (k : BitVec 4) (b0 b1 b2 b3 : Byte),
    blockRead m (4 * k.toNat) = some b0 → blockRead m (4 * k.toNat + 1) = some b1 →
    blockRead m (4 * k.toNat + 2) = some b2 → blockRead m (4 * k.toNat + 3) = some b3 →
    (messageWord m k).toNat = b0.toNat + 2 ^ 8 * b1.toNat + 2 ^ 16 * b2.toNat + 2 ^ 24 * b3.toNat

/-- 43_digest.md R150: d[4w+i] is bits 8i+7 : 8i of word w of A, B, C, D. -/
def Obligations.DigestBytesAreLittleEndian : Prop :=
  ∀ (h : Quad) (w i : Nat), w < 4 → i < 4 →
    (digestByte h (4 * w + i)).toNat = ([h.a, h.b, h.c, h.d].getD w 0).toNat / 2 ^ (8 * i) % 2 ^ 8

/-- 43_digest.md R151, R152: two lowercase characters a byte, the high nibble first. -/
def Obligations.HexDigestIsHighNibbleFirst : Prop :=
  (∀ (h : Quad) (n : Nat),
    hexByte h (2 * n) = hexchar (BitVec.ofNat 4 ((digestByte h n).toNat / 16)) ∧
    hexByte h (2 * n + 1) = hexchar (BitVec.ofNat 4 ((digestByte h n).toNat % 16))) ∧
  (∀ v : BitVec 4, (hexchar v).toNat = if v.toNat < 10 then 0x30 + v.toNat else 0x61 + (v.toNat - 10))

/-! ### The CTRL commands -/

/-- 44_commands.md R162: NOP completes while BUSY = 0, with no effect but the host's normal response; while BUSY = 1 it
raises ErrBusy. -/
def Obligations.NopCompletes : Prop :=
  ∀ s : State, s.fault = none →
    (s.busy = false → exec .nop s = .next { s with responses := .ok :: s.responses }) ∧
    (s.busy = true → exec .nop s = .next { s with errBusy := true, responses := .ok :: s.responses })

/-- 44_commands.md R163: INIT completes while BUSY = 0: the IV, DONE cleared, and nothing else of the engine; while
BUSY = 1 it is dropped with ErrBusy. -/
def Obligations.InitCompletes : Prop :=
  ∀ s : State, s.fault = none →
    (s.busy = false → exec .init s = .next { s with
      chain := ⟨0x67452301, 0xEFCDAB89, 0x98BADCFE, 0x10325476⟩
      done := false
      responses := .ok :: s.responses }) ∧
    (s.busy = true → exec .init s = .next { s with errBusy := true, responses := .ok :: s.responses })

/-- 42_compression.md R131, 44_commands.md R164: COMPRESS with BUSY = 0 and DONE = 0 starts the block when all 64 bytes
are written, and otherwise records UnwrittenBlockByte and changes nothing else (60_exceptions.md R206; that the host then
gets no response is the model's reading, assumption 10). -/
def Obligations.CompressStartsBlock : Prop :=
  ∀ (s : State) (last : Bool), s.fault = none → s.busy = false → s.done = false →
    ((∀ i, i < 64 → written s.block i = true) →
      exec (.compress last) s = .next { s with
        work := s.chain, j := 0, last := last, busy := true, responses := .ok :: s.responses }) ∧
    ((∃ i, i < 64 ∧ written s.block i = false) →
      exec (.compress last) s = .next { s with fault := some .unwrittenBlockByte })

/-- 44_commands.md R164, 42_compression.md R131: COMPRESS completes in every state with BUSY = 0, DONE = 0, no fault and
every block byte written. -/
def Obligations.CompressCompletes : Prop :=
  ∀ (s : State) (last : Bool), s.fault = none → s.busy = false → s.done = false →
    (∀ i, i < 64 → written s.block i = true) →
    exec (.compress last) s = .next { s with
      work := s.chain, j := 0, last := last, busy := true, responses := .ok :: s.responses }

/-- 60_exceptions.md R205: COMPRESS with DONE = 1 is dropped and sets ERR_SEQ. -/
def Obligations.CompressAfterDoneIsDropped : Prop :=
  ∀ (s : State) (last : Bool), s.fault = none → s.busy = false → s.done = true →
    exec (.compress last) s = .next { s with errSeq := true, responses := .ok :: s.responses }

/-- 60_exceptions.md R203: while BUSY = 1 every CTRL write, of any word, and every block write is dropped and sets
ERR_BUSY, with the normal response. -/
def Obligations.WritesWhileBusyAreDropped : Prop :=
  ∀ s : State, s.fault = none → s.busy = true →
    let dropped : Host.Outcome State Fault Refusal :=
      .next { s with errBusy := true, responses := .ok :: s.responses }
    exec .nop s = dropped ∧ exec .init s = dropped ∧ (∀ last, exec (.compress last) s = dropped) ∧
    (∀ w, exec (.wr32 0x00 w) s = dropped) ∧
    (∀ (off : BitVec 8) (v : Word), 0x40 ≤ off.toNat → off.toNat < 0x80 → off.toNat % 4 = 0 →
      exec (.wr32 off v) s = dropped) ∧
    (∀ (off : BitVec 8) (v : Byte), 0x40 ≤ off.toNat → off.toNat < 0x80 → exec (.wr8 off v) s = dropped)

/-- 60_exceptions.md R204: an illegal CTRL word with BUSY = 0 is dropped and sets ERR_CMD. -/
def Obligations.IllegalCtrlWordIsDropped : Prop :=
  ∀ (s : State) (w : Word), s.fault = none → s.busy = false →
    w ≠ 0x00000000 → w ≠ 0x00000001 → w ≠ 0x00000002 → w ≠ 0x00000006 →
    exec (.wr32 0x00 w) s = .next { s with errCmd := true, responses := .ok :: s.responses }

/-- 44_commands.md R161, 30_encoding.md R78: a WR32 of a legal CTRL word to offset 0x00 is that command, in every
state. -/
def Obligations.WriteOfCtrlWordIsItsCommand : Prop :=
  ∀ s : State,
    exec (.wr32 0x00 0x00000000) s = exec .nop s ∧ exec (.wr32 0x00 0x00000001) s = exec .init s ∧
    exec (.wr32 0x00 0x00000002) s = exec (.compress false) s ∧
    exec (.wr32 0x00 0x00000006) s = exec (.compress true) s

/-! ### The register accesses -/

/-- 20_memory.md R58, R56, R57: CheckAccess written out over the offsets of R52, the first failing check deciding; a host
access of any descriptor that fails one ends with that cause and changes no state of the engine. -/
def Obligations.AdmissionFollowsCheckOrder : Prop :=
  (∀ (a : Access) (s : State) (c : BusCause), s.fault = none →
    checkAccess (opDir a.op) (opSize a.op) a.off s.done = some c →
    hostTurn a s = .next { s with responses := .busError c :: s.responses }) ∧
  ∀ (dir : Dir) (size : Nat) (off : BitVec 8) (done : Bool),
    checkAccess dir size off done =
      if size ≠ 1 ∧ size ≠ 4 then some .badSize
      else if size = 4 ∧ off.toNat % 4 ≠ 0 then some .misaligned
      else if (0x08 ≤ off.toNat ∧ off.toNat < 0x40) ∨ (0x90 ≤ off.toNat ∧ off.toNat < 0xA0) ∨ 0xC0 ≤ off.toNat then
        some .unmapped
      else if off.toNat < 0x08 ∧ size = 1 then some .badSize
      else if dir = .write ∧ ((0x04 ≤ off.toNat ∧ off.toNat < 0x08) ∨ 0x80 ≤ off.toNat) then some .roWrite
      else if dir = .read ∧ 0x80 ≤ off.toNat ∧ done = false then some .notReady
      else none

/-- 60_exceptions.md R202: an access that fails a check ends with an error response carrying the first failing check's
cause, of which the host sees the error alone, and changes nothing else. -/
def Obligations.BusErrorChangesNothing : Prop :=
  (∀ (s : State) (off : BitVec 8) (c : BusCause), s.fault = none →
    let refused : Host.Outcome State Fault Refusal := .next { s with responses := .busError c :: s.responses }
    (checkAccess .read 1 off s.done = some c → exec (.rd8 off) s = refused) ∧
    (∀ v, checkAccess .write 1 off s.done = some c → exec (.wr8 off v) s = refused) ∧
    (checkAccess .read 4 off s.done = some c → exec (.rd32 off) s = refused) ∧
    (∀ v, checkAccess .write 4 off s.done = some c → exec (.wr32 off v) s = refused)) ∧
  (∀ c, hostView (.busError c) = .error)

/-- 44_commands.md R165: what RD32 returns in each region, at every aligned offset of it. -/
def Obligations.Rd32Completes : Prop :=
  ∀ s : State, s.fault = none →
    let answers (off : Nat) (v : Word) : Prop :=
      exec (.rd32 (BitVec.ofNat 8 off)) s = .next { s with responses := .data32 v :: s.responses }
    answers 0x00 0x00000000 ∧
    answers 0x04 (BitVec.ofNat 32 (s.busy.toNat + 2 * s.done.toNat + 4 * s.errCmd.toNat + 8 * s.errBusy.toNat
      + 16 * s.errSeq.toNat)) ∧
    (∀ k b0 b1 b2 b3, k < 16 → blockRead s.block (4 * k) = some b0 → blockRead s.block (4 * k + 1) = some b1 →
      blockRead s.block (4 * k + 2) = some b2 → blockRead s.block (4 * k + 3) = some b3 →
      answers (0x40 + 4 * k) (packWord b0 b1 b2 b3)) ∧
    (∀ k q, k < 16 → q < 4 → written s.block (4 * k + q) = false →
      exec (.rd32 (BitVec.ofNat 8 (0x40 + 4 * k))) s = .next { s with fault := some .unwrittenBlockRead }) ∧
    (s.done = true → ∀ w, w < 4 → answers (0x80 + 4 * w) ([s.chain.a, s.chain.b, s.chain.c, s.chain.d].getD w 0)) ∧
    (s.done = true → ∀ q, q < 8 → answers (0xA0 + 4 * q)
      (packWord (hexByte s.chain (4 * q)) (hexByte s.chain (4 * q + 1)) (hexByte s.chain (4 * q + 2))
        (hexByte s.chain (4 * q + 3))))

/-- 44_commands.md R166: what RD8 returns in each region that admits it, at every offset of it. -/
def Obligations.Rd8Completes : Prop :=
  ∀ s : State, s.fault = none →
    let answers (off : Nat) (v : Byte) : Prop :=
      exec (.rd8 (BitVec.ofNat 8 off)) s = .next { s with responses := .data8 v :: s.responses }
    (∀ i v, i < 64 → blockRead s.block i = some v → answers (0x40 + i) v) ∧
    (∀ i, i < 64 → written s.block i = false →
      exec (.rd8 (BitVec.ofNat 8 (0x40 + i))) s = .next { s with fault := some .unwrittenBlockRead }) ∧
    (s.done = true → ∀ n, n < 16 → answers (0x80 + n) (digestByte s.chain n)) ∧
    (s.done = true → ∀ n, n < 32 → answers (0xA0 + n) (hexByte s.chain n))

/-- 44_commands.md R167, R169, 20_memory.md R53: WR32 to BLOCK with BUSY = 0 stores its four lanes, sets their written
flags, leaves every other block byte and everything else of the engine as it was. -/
def Obligations.Wr32StoresFourBytes : Prop :=
  ∀ (s : State) (k : Nat) (v : Word), s.fault = none → s.busy = false → k < 16 →
    ∃ m, exec (.wr32 (BitVec.ofNat 8 (0x40 + 4 * k)) v) s =
        .next { s with block := m, responses := .ok :: s.responses } ∧
      (∀ q, q < 4 → blockRead m (4 * k + q) = some (v.extractLsb' (8 * q) 8)) ∧
      (∀ i, i < 4 * k ∨ 4 * k + 4 ≤ i → blockRead m i = blockRead s.block i)

/-- 44_commands.md R168, R169: WR8 to BLOCK with BUSY = 0 stores its byte, sets its written flag, leaves every other
block byte and everything else of the engine as it was. -/
def Obligations.Wr8StoresOneByte : Prop :=
  ∀ (s : State) (i : Nat) (v : Byte), s.fault = none → s.busy = false → i < 64 →
    ∃ m, exec (.wr8 (BitVec.ofNat 8 (0x40 + i)) v) s =
        .next { s with block := m, responses := .ok :: s.responses } ∧
      blockRead m i = some v ∧ (∀ a, a ≠ i → blockRead m a = blockRead s.block a)

/-- 20_memory.md R60: a read changes nothing but what the host received, or records the fault of an unwritten byte. -/
def Obligations.ReadsHaveNoSideEffect : Prop :=
  ∀ (s t : State) (off : BitVec 8), exec (.rd8 off) s = .next t ∨ exec (.rd32 off) s = .next t →
    (t.fault = s.fault ∧ ∃ rs, t = { s with responses := rs }) ∨
    (s.fault = none ∧ t = { s with fault := some .unwrittenBlockRead })

/-- 20_memory.md R53, 42_compression.md R130: after a WR32 of v to word k of BLOCK, RD32 there returns v and message word
X[k] is v. -/
def Obligations.StoredWordIsReadAndUsed : Prop :=
  ∀ (s t : State) (k : Nat) (v : Word), s.fault = none → s.busy = false → k < 16 →
    exec (.wr32 (BitVec.ofNat 8 (0x40 + 4 * k)) v) s = .next t →
    exec (.rd32 (BitVec.ofNat 8 (0x40 + 4 * k))) t = .next { t with responses := .data32 v :: t.responses } ∧
    messageWord t.block (BitVec.ofNat 4 k) = v

/-- 20_memory.md R55, 42_compression.md R130: a WR8 to byte lane q of word k of BLOCK changes lane q of message word X[k]
and no other lane and no other message word. -/
def Obligations.StoredByteIsItsLane : Prop :=
  ∀ (s t : State) (k q : Nat) (v : Byte), s.fault = none → s.busy = false → k < 16 → q < 4 →
    exec (.wr8 (BitVec.ofNat 8 (0x40 + 4 * k + q)) v) s = .next t →
    byteLane (messageWord t.block (BitVec.ofNat 4 k)) q = v ∧
    (∀ q', q' < 4 → q' ≠ q →
      byteLane (messageWord t.block (BitVec.ofNat 4 k)) q' = byteLane (messageWord s.block (BitVec.ofNat 4 k)) q') ∧
    (∀ k', k' < 16 → k' ≠ k → messageWord t.block (BitVec.ofNat 4 k') = messageWord s.block (BitVec.ofNat 4 k'))

/-- 43_digest.md R153, 20_memory.md R58: while DONE = 0 a read of a digest region gives NOT_READY, never a value (a
misaligned one gives the earlier check's MISALIGNED). -/
def Obligations.NoDigestBeforeDone : Prop :=
  ∀ (s : State) (off : BitVec 8), s.fault = none → s.done = false →
    ((0x80 ≤ off.toNat ∧ off.toNat < 0x90) ∨ (0xA0 ≤ off.toNat ∧ off.toNat < 0xC0)) →
    exec (.rd8 off) s = .next { s with responses := .busError .notReady :: s.responses } ∧
    (off.toNat % 4 = 0 →
      exec (.rd32 off) s = .next { s with responses := .busError .notReady :: s.responses }) ∧
    (off.toNat % 4 ≠ 0 →
      exec (.rd32 off) s = .next { s with responses := .busError .misaligned :: s.responses })

/-- 60_exceptions.md R208: an access has exactly one outcome: one response and no fault, or a fault record and no other
change. -/
def Obligations.HostAccessHasOneOutcome : Prop :=
  ∀ (a : Access) (s t : State), s.fault = none → hostTurn a s = .next t →
    ((∃ r, t.responses = r :: s.responses) ∧ t.fault = none) ∨ (∃ f, t = { s with fault := some f })

/-- 20_memory.md R60, 10_state.md R20 ("written by"): what no instruction touches, and which instructions may touch the
rest. Every instruction leaves the coming turns alone, gives the host at most one response and clears no error bit; only
WR8 and WR32 write the block buffer; only INIT (or the WR32 of a CTRL word) writes A..D, and no instruction sets DONE; only
COMPRESS (or that WR32) and the round operations write the working registers and j; only COMPRESS (or that WR32) writes L
and BUSY. -/
def Obligations.EveryInstructionFrame : Prop :=
  ∀ (i : Instr) (s t : State), exec i s = .next t →
    t.turns = s.turns ∧ (t.responses = s.responses ∨ ∃ r, t.responses = r :: s.responses) ∧
    (s.errCmd = true → t.errCmd = true) ∧ (s.errBusy = true → t.errBusy = true) ∧ (s.errSeq = true → t.errSeq = true) ∧
    ((∀ off v, i ≠ .wr8 off v) → (∀ off v, i ≠ .wr32 off v) → t.block = s.block) ∧
    (i ≠ .init → (∀ v, i ≠ .wr32 0x00 v) → t.chain = s.chain ∧ t.done = s.done) ∧
    (t.done = true → s.done = true) ∧
    ((∀ last, i ≠ .compress last) → (∀ v, i ≠ .wr32 0x00 v) → t.busy = s.busy ∧ t.last = s.last) ∧
    ((∀ last, i ≠ .compress last) → (∀ v, i ≠ .wr32 0x00 v) →
      i ≠ .roundF → i ≠ .roundG → i ≠ .roundH → i ≠ .roundI → t.work = s.work ∧ t.j = s.j)

/-! ### The host's contract and the platform -/

/-- 45_host_padding.md R192, R194: the padded length, the number of blocks, and the length of each. -/
def Obligations.PaddingFillsWholeBlocks : Prop :=
  ∀ msg : List Byte,
    (pad msg).length = msg.length + 1 + zeroBytes msg.length + 8 ∧
    (pad msg).length = 64 * ((msg.length + 8) / 64 + 1) ∧
    (paddedBlocks msg).length = (msg.length + 8) / 64 + 1 ∧
    (∀ b ∈ paddedBlocks msg, b.length = 64) ∧
    (paddedBlocks msg).flatten = pad msg ∧
    (msg.length % 64 ≤ 55 → (paddedBlocks msg).length = msg.length / 64 + 1) ∧
    (56 ≤ msg.length % 64 → (paddedBlocks msg).length = msg.length / 64 + 2)

/-- 45_host_padding.md R191, R192, R193: every byte of the padded buffer. -/
def Obligations.PaddingBytes : Prop :=
  ∀ msg : List Byte,
    let n := msg.length
    let z := zeroBytes n
    z < 64 ∧ (n + 1 + z) % 64 = 56 ∧
    (∀ i, i < n → (pad msg)[i]? = msg[i]?) ∧
    (pad msg)[n]? = some 0x80 ∧
    (∀ i, n < i → i < n + 1 + z → (pad msg)[i]? = some 0x00) ∧
    (∀ q, q < 8 → (pad msg)[n + 1 + z + q]? = some (BitVec.ofNat 8 ((8 * n) % 2 ^ 64 / 2 ^ (8 * q))))

/-- 30_encoding.md R78, 10_state.md R42: one read of POLL. It gives the STATUS word; while BUSY = 1 POLL is to be done again,
with BUSY = 0 it ends and the word, whose bit 0 is 0, is its value; where a fault is recorded nothing happens
(assumption 10). -/
def Obligations.PollReadsUntilIdle : Prop :=
  ∀ (r : HostRun) (rest : List HostOp), r.program = .poll :: rest →
    let v := BitVec.ofNat 32 (r.engine.busy.toNat + 2 * r.engine.done.toNat + 4 * r.engine.errCmd.toNat
      + 8 * r.engine.errBusy.toNat + 16 * r.engine.errSeq.toNat)
    let answered := { r.engine with responses := .data32 v :: r.engine.responses }
    (r.engine.fault = none → r.engine.busy = true → move r .host = { r with engine := answered }) ∧
    (r.engine.fault = none → r.engine.busy = false →
      move r .host = { program := rest, polls := v :: r.polls, engine := answered } ∧ v.getLsbD 0 = false) ∧
    (r.engine.fault ≠ none → move r .host = r)

/-- 70_reset_and_hazards.md R239, R236, 20_memory.md R62: under every order of moves that is fair to the engine, POLL ends:
from some point on the host's next read, if none before did, ends it with a value whose bit 0 is 0 and, if a block was in
flight, whose bit 1 is that block's LAST. How many reads it makes is not said (R238). An order as a function, given from
outside, is the model's form (assumption 17). -/
def Obligations.EveryPollEnds : Prop :=
  ∀ (r : HostRun) (rest : List HostOp) (order : Nat → Agent), r.program = .poll :: rest → r.engine.fault = none →
    Fair .engine order →
    ∃ n, ∀ m, n ≤ m → order m = .host →
      ∃ k v, k ≤ m ∧ (runAgents order k r).program = .poll :: rest ∧ (runAgents order k r).polls = r.polls ∧
        (runAgents order (k + 1) r).program = rest ∧ (runAgents order (k + 1) r).polls = v :: r.polls ∧
        v.getLsbD 0 = false ∧ (r.engine.busy = true → v.getLsbD 1 = r.engine.last) ∧
        (runAgents order (k + 1) r).engine.busy = false

/-- 45_host_padding.md R195, 42_compression.md R136, 43_digest.md R155: the host sequence of a message, begun by INIT or on
the state a reset left, whatever the order of the moves, ends clean with DONE = 1, A..D the chaining value of the message,
and the digest words the last responses: the 32 characters of hash(msg), or A..D. With the host and the engine both moving
again and again it does end. Orders given from outside are the model's form (assumption 17). -/
def Obligations.HostSequenceGivesHash : Prop :=
  ∀ (start : SequenceStart) (reading : DigestReading) (msg : List Byte) (s : State),
    cleanRun s = true → s.busy = false → (start = .afterReset → s.chain = iv ∧ s.done = false) →
    let begun : HostRun := ⟨hostSequence start reading msg, [], s⟩
    (∀ moves : List Agent, (runMoves begun moves).program = [] →
      let e := (runMoves begun moves).engine
      cleanRun e = true ∧ e.busy = false ∧ e.done = true ∧ e.chain = chainOfMessage msg ∧
        e.responses.take (digestWords reading msg).length = ((digestWords reading msg).map .data32).reverse) ∧
    (∀ order : Nat → Agent, Fair .host order → Fair .engine order →
      ∃ n, (runAgents order n begun).program = [])

/-- 20_memory.md R65, 60_exceptions.md R214: a step of one instance changes no other; an access changes no instance whose
window does not hold its address; where every instance has a window of its own, an access in the window of one is its next
turn and leaves every other as it was. The platform's form is the model's own (assumption 12). -/
def Obligations.EnginesAreIndependent : Prop :=
  (∀ (p : Platform) (i k : Nat), k ≠ i → (platformStep i p)[k]? = p[k]?) ∧
  (∀ (p : Platform) (addr k : Nat) (op : BitVec 3) (data : Word) (sl : Slot), p[k]? = some sl →
    ¬ (sl.base ≤ addr ∧ addr < sl.base + 256) → (platformAccess addr op data p)[k]? = some sl) ∧
  (∀ (p : Platform) (off : BitVec 8) (k : Nat) (op : BitVec 3) (data : Word) (sl : Slot), p[k]? = some sl →
    (platformAccess (sl.base + off.toNat) op data p)[k]? =
      some { sl with engine := { sl.engine with turns := .host ⟨op, off, data⟩ :: sl.engine.turns } }) ∧
  (∀ (p : Platform) (i k : Nat) (off : BitVec 8) (op : BitVec 3) (data : Word) (sl : Slot), platformWellFormed p = true →
    p[i]? = some sl → k ≠ i → (platformAccess (sl.base + off.toNat) op data p)[k]? = p[k]?)
end

