-- ==== Sys2Proof/Laws/Memory.lean ====
section
/-! SUPPORT. The block buffer: a read after a write, a write leaves every other byte alone, and every write keeps the
canonical form. -/

namespace Sys2Proof.Machine

@[simp] theorem blockRead_nil (a : Nat) : blockRead [] a = none := rfl

@[simp] theorem written_nil (a : Nat) : written [] a = false := rfl

theorem blockRead_write (m : Memory) (a b : Nat) (v : Byte) :
    blockRead (blockWrite m a v) b = if b = a then some v else blockRead m b := by
  induction m with
  | nil => simp [blockWrite, blockRead]
  | cons p rest ih =>
    obtain ⟨k, w⟩ := p
    by_cases h1 : a < k
    · simp [blockWrite, blockRead, h1]
    · by_cases h2 : a = k
      · subst h2
        by_cases h3 : b = a <;> simp [blockWrite, blockRead, h3]
      · by_cases h3 : b = k
        · subst h3
          simp [blockWrite, blockRead, h1, h2, Ne.symm h2]
        · simp [blockWrite, blockRead, h1, h2, h3, ih]

@[simp] theorem blockRead_write_same (m : Memory) (a : Nat) (v : Byte) :
    blockRead (blockWrite m a v) a = some v := by simp [blockRead_write]

theorem blockRead_write_other (m : Memory) {a b : Nat} (v : Byte) (h : b ≠ a) :
    blockRead (blockWrite m a v) b = blockRead m b := by simp [blockRead_write, h]

/-- What a consecutive store leaves at index `b`: the stored byte inside its range, the old byte outside. -/
theorem blockRead_writeBytes (vs : List Byte) (m : Memory) (a b : Nat) :
    blockRead (blockWriteBytes m a vs) b
      = if a ≤ b ∧ b < a + vs.length then vs[b - a]? else blockRead m b := by
  induction vs generalizing m a with
  | nil =>
    simp [blockWriteBytes]
  | cons v vs ih =>
    simp only [blockWriteBytes, ih, blockRead_write, List.length_cons]
    by_cases h1 : b = a
    · subst h1; simp
    · by_cases h2 : a + 1 ≤ b ∧ b < a + 1 + vs.length
      · have h3 : a ≤ b ∧ b < a + (vs.length + 1) := by omega
        have h4 : b - a = (b - (a + 1)) + 1 := by omega
        simp [h2, h3, h4]
      · have h3 : ¬ (a ≤ b ∧ b < a + (vs.length + 1)) := by omega
        rw [if_neg h2, if_neg h3, if_neg h1]

theorem wfFrom_mono {lo lo' : Nat} (m : Memory) (h : lo' ≤ lo) (hm : Memory.wfFrom lo m = true) :
    Memory.wfFrom lo' m = true := by
  cases m with
  | nil => rfl
  | cons p rest =>
    obtain ⟨k, w⟩ := p
    simp only [Memory.wfFrom, Bool.and_eq_true, decide_eq_true_eq] at hm ⊢
    exact ⟨⟨by omega, hm.1.2⟩, hm.2⟩

theorem wfFrom_write (m : Memory) (lo a : Nat) (v : Byte) (hlo : lo ≤ a) (ha : a < 64)
    (hm : Memory.wfFrom lo m = true) : Memory.wfFrom lo (blockWrite m a v) = true := by
  induction m generalizing lo with
  | nil => simp [blockWrite, Memory.wfFrom, hlo, ha]
  | cons p rest ih =>
    obtain ⟨k, w⟩ := p
    simp only [Memory.wfFrom, Bool.and_eq_true, decide_eq_true_eq] at hm
    obtain ⟨⟨h1, h2⟩, h3⟩ := hm
    by_cases c1 : a < k
    · simp [blockWrite, c1, Memory.wfFrom, hlo, ha, h2, h3, Nat.succ_le_of_lt c1]
    · by_cases c2 : a = k
      · subst c2; simp [blockWrite, Memory.wfFrom, hlo, ha, h3]
      · simp [blockWrite, c1, c2, Memory.wfFrom, h1, h2, ih (k + 1) (by omega) h3]

/-- One store keeps the canonical form. -/
theorem wf_write (m : Memory) (a : Nat) (v : Byte) (ha : a < 64) (hm : Memory.wf m = true) :
    Memory.wf (blockWrite m a v) = true := wfFrom_write m 0 a v (Nat.zero_le a) ha hm

/-- A consecutive store inside the buffer keeps the canonical form. -/
theorem wf_writeBytes (vs : List Byte) (m : Memory) (a : Nat) (ha : a + vs.length ≤ 64) (hm : Memory.wf m = true) :
    Memory.wf (blockWriteBytes m a vs) = true := by
  induction vs generalizing m a with
  | nil => exact hm
  | cons v vs ih =>
    simp only [List.length_cons] at ha
    exact ih (blockWrite m a v) (a + 1) (by omega) (wf_write m a v (by omega) hm)

theorem wf_nil : Memory.wf [] = true := rfl

/-- A complete block has a byte at every index. -/
theorem blockComplete_iff (m : Memory) :
    blockComplete m = true ↔ ∀ i, i < 64 → ∃ v, blockRead m i = some v := by
  simp [blockComplete, written, Option.isSome_iff_exists]

/-- A complete block reads one byte at any index of the buffer. -/
theorem blockRead_of_complete {m : Memory} (h : blockComplete m = true) {i : Nat} (hi : i < 64) :
    ∃ v, blockRead m i = some v := (blockComplete_iff m).1 h i hi

/-- A complete block reads four bytes at any index a 4-byte access reaches. -/
theorem blockReadWord_of_complete {m : Memory} (h : blockComplete m = true) {i : Nat} (hi : i + 3 < 64) :
    ∃ v, blockReadWord m i = some v := by
  obtain ⟨b0, h0⟩ := blockRead_of_complete h (i := i) (by omega)
  obtain ⟨b1, h1⟩ := blockRead_of_complete h (i := i + 1) (by omega)
  obtain ⟨b2, h2⟩ := blockRead_of_complete h (i := i + 2) (by omega)
  obtain ⟨b3, h3⟩ := blockRead_of_complete h (i := i + 3) (by omega)
  exact ⟨packWord b0 b1 b2 b3, by simp [blockReadWord, h0, h1, h2, h3]⟩

/-- A block that has been written stays complete under any store. -/
theorem blockComplete_writeBytes (vs : List Byte) (m : Memory) (a : Nat) (h : blockComplete m = true) :
    blockComplete (blockWriteBytes m a vs) = true := by
  rw [blockComplete_iff] at h ⊢
  intro i hi
  rw [blockRead_writeBytes]
  split
  · rename_i hr
    exact ⟨_, List.getElem?_eq_getElem (by omega)⟩
  · exact h i hi

theorem wordBytes_length (v : Word) : (wordBytes v).length = 4 := rfl

/-- The lanes of a word put together again are the word (20_memory.md R53). -/
theorem packWord_byteLane (v : Word) :
    packWord (byteLane v 0) (byteLane v 1) (byteLane v 2) (byteLane v 3) = v := by
  apply BitVec.eq_of_getLsbD_eq
  intro i hi
  simp only [packWord, byteLane, BitVec.getLsbD_append, BitVec.getLsbD_extractLsb']
  by_cases h1 : i < 8
  · simp [h1]
  · by_cases h2 : i < 16
    · have : i - 8 < 8 := by omega
      have e : 8 + (i - 8) = i := by omega
      simp [h1, this, e]
    · by_cases h3 : i < 24
      · have a1 : ¬ i - 8 < 8 := by omega
        have a2 : i - 8 - 8 < 8 := by omega
        have e : 16 + (i - 8 - 8) = i := by omega
        simp [h1, a1, a2, e]
      · have a1 : ¬ i - 8 < 8 := by omega
        have a2 : ¬ i - 8 - 8 < 8 := by omega
        have a3 : i - 8 - 8 - 8 < 8 := by omega
        have e : 24 + (i - 8 - 8 - 8) = i := by omega
        simp [h1, a1, a2, a3, e]

end Sys2Proof.Machine
end

