-- ==== Sys2Proof/Laws/State.lean ====
section
/-! SUPPORT. What each update of the state leaves in each field; every lemma is true by rfl, so that no proof unfolds a
record update. -/

namespace Sys2Proof.Machine

/-! ### respond -/

@[simp] theorem respond_chain (r : Response) (s : State) : (respond r s).chain = s.chain := rfl
@[simp] theorem respond_work (r : Response) (s : State) : (respond r s).work = s.work := rfl
@[simp] theorem respond_j (r : Response) (s : State) : (respond r s).j = s.j := rfl
@[simp] theorem respond_busy (r : Response) (s : State) : (respond r s).busy = s.busy := rfl
@[simp] theorem respond_last (r : Response) (s : State) : (respond r s).last = s.last := rfl
@[simp] theorem respond_done (r : Response) (s : State) : (respond r s).done = s.done := rfl
@[simp] theorem respond_errCmd (r : Response) (s : State) : (respond r s).errCmd = s.errCmd := rfl
@[simp] theorem respond_errBusy (r : Response) (s : State) : (respond r s).errBusy = s.errBusy := rfl
@[simp] theorem respond_errSeq (r : Response) (s : State) : (respond r s).errSeq = s.errSeq := rfl
@[simp] theorem respond_block (r : Response) (s : State) : (respond r s).block = s.block := rfl
@[simp] theorem respond_fault (r : Response) (s : State) : (respond r s).fault = s.fault := rfl
@[simp] theorem respond_turns (r : Response) (s : State) : (respond r s).turns = s.turns := rfl
@[simp] theorem respond_responses (r : Response) (s : State) : (respond r s).responses = r :: s.responses := rfl

/-! ### busError -/

@[simp] theorem busError_chain (c : BusCause) (s : State) : (busError c s).chain = s.chain := rfl
@[simp] theorem busError_work (c : BusCause) (s : State) : (busError c s).work = s.work := rfl
@[simp] theorem busError_j (c : BusCause) (s : State) : (busError c s).j = s.j := rfl
@[simp] theorem busError_busy (c : BusCause) (s : State) : (busError c s).busy = s.busy := rfl
@[simp] theorem busError_last (c : BusCause) (s : State) : (busError c s).last = s.last := rfl
@[simp] theorem busError_done (c : BusCause) (s : State) : (busError c s).done = s.done := rfl
@[simp] theorem busError_errCmd (c : BusCause) (s : State) : (busError c s).errCmd = s.errCmd := rfl
@[simp] theorem busError_errBusy (c : BusCause) (s : State) : (busError c s).errBusy = s.errBusy := rfl
@[simp] theorem busError_errSeq (c : BusCause) (s : State) : (busError c s).errSeq = s.errSeq := rfl
@[simp] theorem busError_block (c : BusCause) (s : State) : (busError c s).block = s.block := rfl
@[simp] theorem busError_fault (c : BusCause) (s : State) : (busError c s).fault = s.fault := rfl
@[simp] theorem busError_turns (c : BusCause) (s : State) : (busError c s).turns = s.turns := rfl
@[simp] theorem busError_responses (c : BusCause) (s : State) : (busError c s).responses = .busError c :: s.responses := rfl

/-! ### raiseErrBusy -/

@[simp] theorem raiseErrBusy_chain (s : State) : (raiseErrBusy s).chain = s.chain := rfl
@[simp] theorem raiseErrBusy_work (s : State) : (raiseErrBusy s).work = s.work := rfl
@[simp] theorem raiseErrBusy_j (s : State) : (raiseErrBusy s).j = s.j := rfl
@[simp] theorem raiseErrBusy_busy (s : State) : (raiseErrBusy s).busy = s.busy := rfl
@[simp] theorem raiseErrBusy_last (s : State) : (raiseErrBusy s).last = s.last := rfl
@[simp] theorem raiseErrBusy_done (s : State) : (raiseErrBusy s).done = s.done := rfl
@[simp] theorem raiseErrBusy_errCmd (s : State) : (raiseErrBusy s).errCmd = s.errCmd := rfl
@[simp] theorem raiseErrBusy_errBusy (s : State) : (raiseErrBusy s).errBusy = true := rfl
@[simp] theorem raiseErrBusy_errSeq (s : State) : (raiseErrBusy s).errSeq = s.errSeq := rfl
@[simp] theorem raiseErrBusy_block (s : State) : (raiseErrBusy s).block = s.block := rfl
@[simp] theorem raiseErrBusy_fault (s : State) : (raiseErrBusy s).fault = s.fault := rfl
@[simp] theorem raiseErrBusy_turns (s : State) : (raiseErrBusy s).turns = s.turns := rfl
@[simp] theorem raiseErrBusy_responses (s : State) : (raiseErrBusy s).responses = .ok :: s.responses := rfl

/-! ### raiseErrCmd -/

@[simp] theorem raiseErrCmd_chain (s : State) : (raiseErrCmd s).chain = s.chain := rfl
@[simp] theorem raiseErrCmd_work (s : State) : (raiseErrCmd s).work = s.work := rfl
@[simp] theorem raiseErrCmd_j (s : State) : (raiseErrCmd s).j = s.j := rfl
@[simp] theorem raiseErrCmd_busy (s : State) : (raiseErrCmd s).busy = s.busy := rfl
@[simp] theorem raiseErrCmd_last (s : State) : (raiseErrCmd s).last = s.last := rfl
@[simp] theorem raiseErrCmd_done (s : State) : (raiseErrCmd s).done = s.done := rfl
@[simp] theorem raiseErrCmd_errCmd (s : State) : (raiseErrCmd s).errCmd = true := rfl
@[simp] theorem raiseErrCmd_errBusy (s : State) : (raiseErrCmd s).errBusy = s.errBusy := rfl
@[simp] theorem raiseErrCmd_errSeq (s : State) : (raiseErrCmd s).errSeq = s.errSeq := rfl
@[simp] theorem raiseErrCmd_block (s : State) : (raiseErrCmd s).block = s.block := rfl
@[simp] theorem raiseErrCmd_fault (s : State) : (raiseErrCmd s).fault = s.fault := rfl
@[simp] theorem raiseErrCmd_turns (s : State) : (raiseErrCmd s).turns = s.turns := rfl
@[simp] theorem raiseErrCmd_responses (s : State) : (raiseErrCmd s).responses = .ok :: s.responses := rfl

/-! ### raiseErrSeq -/

@[simp] theorem raiseErrSeq_chain (s : State) : (raiseErrSeq s).chain = s.chain := rfl
@[simp] theorem raiseErrSeq_work (s : State) : (raiseErrSeq s).work = s.work := rfl
@[simp] theorem raiseErrSeq_j (s : State) : (raiseErrSeq s).j = s.j := rfl
@[simp] theorem raiseErrSeq_busy (s : State) : (raiseErrSeq s).busy = s.busy := rfl
@[simp] theorem raiseErrSeq_last (s : State) : (raiseErrSeq s).last = s.last := rfl
@[simp] theorem raiseErrSeq_done (s : State) : (raiseErrSeq s).done = s.done := rfl
@[simp] theorem raiseErrSeq_errCmd (s : State) : (raiseErrSeq s).errCmd = s.errCmd := rfl
@[simp] theorem raiseErrSeq_errBusy (s : State) : (raiseErrSeq s).errBusy = s.errBusy := rfl
@[simp] theorem raiseErrSeq_errSeq (s : State) : (raiseErrSeq s).errSeq = true := rfl
@[simp] theorem raiseErrSeq_block (s : State) : (raiseErrSeq s).block = s.block := rfl
@[simp] theorem raiseErrSeq_fault (s : State) : (raiseErrSeq s).fault = s.fault := rfl
@[simp] theorem raiseErrSeq_turns (s : State) : (raiseErrSeq s).turns = s.turns := rfl
@[simp] theorem raiseErrSeq_responses (s : State) : (raiseErrSeq s).responses = .ok :: s.responses := rfl

/-! ### recordFault -/

@[simp] theorem recordFault_chain (f : Fault) (s : State) : (recordFault f s).chain = s.chain := rfl
@[simp] theorem recordFault_work (f : Fault) (s : State) : (recordFault f s).work = s.work := rfl
@[simp] theorem recordFault_j (f : Fault) (s : State) : (recordFault f s).j = s.j := rfl
@[simp] theorem recordFault_busy (f : Fault) (s : State) : (recordFault f s).busy = s.busy := rfl
@[simp] theorem recordFault_last (f : Fault) (s : State) : (recordFault f s).last = s.last := rfl
@[simp] theorem recordFault_done (f : Fault) (s : State) : (recordFault f s).done = s.done := rfl
@[simp] theorem recordFault_errCmd (f : Fault) (s : State) : (recordFault f s).errCmd = s.errCmd := rfl
@[simp] theorem recordFault_errBusy (f : Fault) (s : State) : (recordFault f s).errBusy = s.errBusy := rfl
@[simp] theorem recordFault_errSeq (f : Fault) (s : State) : (recordFault f s).errSeq = s.errSeq := rfl
@[simp] theorem recordFault_block (f : Fault) (s : State) : (recordFault f s).block = s.block := rfl
@[simp] theorem recordFault_fault (f : Fault) (s : State) : (recordFault f s).fault = some f := rfl
@[simp] theorem recordFault_turns (f : Fault) (s : State) : (recordFault f s).turns = s.turns := rfl
@[simp] theorem recordFault_responses (f : Fault) (s : State) : (recordFault f s).responses = s.responses := rfl

/-! ### roundStep -/

@[simp] theorem roundStep_chain (s : State) : (roundStep s).chain = s.chain := rfl
@[simp] theorem roundStep_work (s : State) : (roundStep s).work = roundRegs (messageWord s.block) (roundIndex s) s.work := rfl
@[simp] theorem roundStep_j (s : State) : (roundStep s).j = s.j + 1 := rfl
@[simp] theorem roundStep_busy (s : State) : (roundStep s).busy = s.busy := rfl
@[simp] theorem roundStep_last (s : State) : (roundStep s).last = s.last := rfl
@[simp] theorem roundStep_done (s : State) : (roundStep s).done = s.done := rfl
@[simp] theorem roundStep_errCmd (s : State) : (roundStep s).errCmd = s.errCmd := rfl
@[simp] theorem roundStep_errBusy (s : State) : (roundStep s).errBusy = s.errBusy := rfl
@[simp] theorem roundStep_errSeq (s : State) : (roundStep s).errSeq = s.errSeq := rfl
@[simp] theorem roundStep_block (s : State) : (roundStep s).block = s.block := rfl
@[simp] theorem roundStep_fault (s : State) : (roundStep s).fault = s.fault := rfl
@[simp] theorem roundStep_turns (s : State) : (roundStep s).turns = s.turns := rfl
@[simp] theorem roundStep_responses (s : State) : (roundStep s).responses = s.responses := rfl

/-! ### accumulateStep -/

@[simp] theorem accumulateStep_chain (s : State) : (accumulateStep s).chain = s.chain.add s.work := rfl
@[simp] theorem accumulateStep_work (s : State) : (accumulateStep s).work = s.work := rfl
@[simp] theorem accumulateStep_j (s : State) : (accumulateStep s).j = 0 := rfl
@[simp] theorem accumulateStep_busy (s : State) : (accumulateStep s).busy = false := rfl
@[simp] theorem accumulateStep_last (s : State) : (accumulateStep s).last = s.last := rfl
@[simp] theorem accumulateStep_done (s : State) : (accumulateStep s).done = s.last := rfl
@[simp] theorem accumulateStep_errCmd (s : State) : (accumulateStep s).errCmd = s.errCmd := rfl
@[simp] theorem accumulateStep_errBusy (s : State) : (accumulateStep s).errBusy = s.errBusy := rfl
@[simp] theorem accumulateStep_errSeq (s : State) : (accumulateStep s).errSeq = s.errSeq := rfl
@[simp] theorem accumulateStep_block (s : State) : (accumulateStep s).block = s.block := rfl
@[simp] theorem accumulateStep_fault (s : State) : (accumulateStep s).fault = s.fault := rfl
@[simp] theorem accumulateStep_turns (s : State) : (accumulateStep s).turns = s.turns := rfl
@[simp] theorem accumulateStep_responses (s : State) : (accumulateStep s).responses = s.responses := rfl

/-! ### resetInput -/

@[simp] theorem resetInput_chain (s : State) : (resetInput s).chain = iv := rfl
@[simp] theorem resetInput_work (s : State) : (resetInput s).work = ⟨0, 0, 0, 0⟩ := rfl
@[simp] theorem resetInput_j (s : State) : (resetInput s).j = 0 := rfl
@[simp] theorem resetInput_busy (s : State) : (resetInput s).busy = false := rfl
@[simp] theorem resetInput_last (s : State) : (resetInput s).last = false := rfl
@[simp] theorem resetInput_done (s : State) : (resetInput s).done = false := rfl
@[simp] theorem resetInput_errCmd (s : State) : (resetInput s).errCmd = false := rfl
@[simp] theorem resetInput_errBusy (s : State) : (resetInput s).errBusy = false := rfl
@[simp] theorem resetInput_errSeq (s : State) : (resetInput s).errSeq = false := rfl
@[simp] theorem resetInput_block (s : State) : (resetInput s).block = [] := rfl
@[simp] theorem resetInput_fault (s : State) : (resetInput s).fault = s.fault := rfl
@[simp] theorem resetInput_turns (s : State) : (resetInput s).turns = s.turns := rfl
@[simp] theorem resetInput_responses (s : State) : (resetInput s).responses = s.responses := rfl

end Sys2Proof.Machine
end

