-- ==== Sys2Proof/Laws/Ops.lean ====
section
/-! SUPPORT. One lemma per shared operation that says everything it can do, and what one instruction can do to the state
(`Effect`), so that no later proof unfolds a meaning. -/

namespace Sys2Proof.Machine

/-! ### live, ctrlWhenIdle, ifAdmitted, startBlock, blockStore, blockLoad -/

@[simp] theorem live_running {s : State} (f : State → State) (h : s.fault = none) :
    live f s = .next (f s) := by simp [live, h]

theorem live_quiescent {s : State} (f : State → State) {r : Fault} (h : s.fault = some r) :
    live f s = .next s := by simp [live, h]

/-- `live` answers a next state: the step's, or the same state where a fault is recorded. -/
theorem live_next {f : State → State} {s t : State} (h : live f s = .next t) :
    (s.fault = none ∧ t = f s) ∨ (s.fault ≠ none ∧ t = s) := by
  unfold live at h
  split at h
  · rename_i hf; cases h; exact .inl ⟨hf, rfl⟩
  · rename_i r hf; cases h; exact .inr ⟨by simp [hf], rfl⟩

@[simp] theorem ctrlWhenIdle_busy {s : State} (k : State → State) (h : s.busy = true) :
    ctrlWhenIdle k s = raiseErrBusy s := by simp [ctrlWhenIdle, h]

@[simp] theorem ctrlWhenIdle_idle {s : State} (k : State → State) (h : s.busy = false) :
    ctrlWhenIdle k s = k s := by simp [ctrlWhenIdle, h]

theorem startBlock_complete {s : State} (last : Bool) (h : blockComplete s.block = true) :
    startBlock last s = respond .ok { s with work := s.chain, j := 0, last := last, busy := true } := by
  simp [startBlock, h]

theorem startBlock_unwritten {s : State} (last : Bool) (h : blockComplete s.block = false) :
    startBlock last s = recordFault .unwrittenBlockByte s := by simp [startBlock, h]

@[simp] theorem blockStore_busy {s : State} (i : Nat) (bytes : List Byte) (h : s.busy = true) :
    blockStore i bytes s = raiseErrBusy s := by simp [blockStore, h]

theorem blockStore_idle {s : State} (i : Nat) (bytes : List Byte) (h : s.busy = false) :
    blockStore i bytes s = respond .ok { s with block := blockWriteBytes s.block i bytes } := by
  simp [blockStore, h]

/-- An access ends in its bus error or in its effect. -/
theorem ifAdmitted_cases (dir : Dir) (size : Nat) (off : BitVec 8) (effect : State → State) (s : State) :
    (∃ c, checkAccess dir size off s.done = some c ∧ ifAdmitted dir size off effect s = busError c s) ∨
    (checkAccess dir size off s.done = none ∧ ifAdmitted dir size off effect s = effect s) := by
  unfold ifAdmitted
  split
  · rename_i c h; exact .inl ⟨c, h, rfl⟩
  · rename_i h; exact .inr ⟨h, rfl⟩

/-- An admitted access has size 1 or 4, is aligned, and lies in a mapped region. -/
theorem checkAccess_none {dir : Dir} {size : Nat} {off : BitVec 8} {done : Bool}
    (h : checkAccess dir size off done = none) :
    (size = 1 ∨ size = 4) ∧ (size = 4 → off.extractLsb' 0 2 = 0) ∧ region off ≠ .unmapped := by
  unfold checkAccess at h
  split at h
  · cases h
  · rename_i h1
    split at h
    · cases h
    · rename_i h2
      split at h
      · cases h
      · rename_i h3
        refine ⟨by tauto, ?_, h3⟩
        intro h4
        by_contra h5
        exact h2 ⟨h4, h5⟩

/-! ### The regions as ranges of offsets (20_memory.md R52) -/

theorem region_ctrl {off : BitVec 8} : region off = .ctrl ↔ off.toNat < 0x04 := by
  unfold region
  repeat' split
  all_goals (simp; omega)

theorem region_block {off : BitVec 8} : region off = .block ↔ 0x40 ≤ off.toNat ∧ off.toNat < 0x80 := by
  unfold region
  repeat' split
  all_goals (simp; omega)

/-- The block index of an offset in BLOCK is below 64. -/
theorem blockIndex_lt {off : BitVec 8} (h : region off = .block) : blockIndex off < 64 := by
  have := region_block.1 h
  unfold blockIndex; omega

/-- An aligned offset is a multiple of 4. -/
theorem aligned_mod {off : BitVec 8} (h : off.extractLsb' 0 2 = 0) : off.toNat % 4 = 0 := by
  have := congrArg BitVec.toNat h
  simpa [BitVec.extractLsb'_toNat] using this

/-- A 4-byte access at an aligned offset of BLOCK lies wholly in the buffer. -/
theorem blockIndex_word {off : BitVec 8} (h : region off = .block) (ha : off.extractLsb' 0 2 = 0) :
    blockIndex off + 3 < 64 := by
  have h1 := region_block.1 h
  have h2 := aligned_mod ha
  unfold blockIndex; omega

/-! ### What one instruction can do -/

/-- Everything a host access can do to a state, whatever its instruction. -/
inductive Effect (s : State) : State → Prop where
  | quiescent (h : s.fault ≠ none) : Effect s s
  | responded (r : Response) (h : s.fault = none) : Effect s (respond r s)
  | droppedBusy (h : s.fault = none) (hb : s.busy = true) : Effect s (raiseErrBusy s)
  | droppedCmd (h : s.fault = none) (hb : s.busy = false) : Effect s (raiseErrCmd s)
  | droppedSeq (h : s.fault = none) (hb : s.busy = false) (hd : s.done = true) : Effect s (raiseErrSeq s)
  | initialised (h : s.fault = none) (hb : s.busy = false) : Effect s (doInit s)
  | started (last : Bool) (h : s.fault = none) (hb : s.busy = false) (hd : s.done = false)
      (hc : blockComplete s.block = true) :
      Effect s (respond .ok { s with work := s.chain, j := 0, last := last, busy := true })
  | stored (i : Nat) (bytes : List Byte) (h : s.fault = none) (hb : s.busy = false) (hi : i + bytes.length ≤ 64) :
      Effect s (respond .ok { s with block := blockWriteBytes s.block i bytes })
  | faulted (f : Fault) (h : s.fault = none)
      (hf : f = .unwrittenBlockByte → s.busy = false) (hc : blockComplete s.block = false) : Effect s (recordFault f s)

theorem effect_command (c : CtrlCmd) {s : State} (h : s.fault = none) :
    Effect s (ctrlWhenIdle (command c) s) := by
  cases hb : s.busy with
  | true => rw [ctrlWhenIdle_busy _ hb]; exact .droppedBusy h hb
  | false =>
    rw [ctrlWhenIdle_idle _ hb]
    cases c with
    | illegal => exact .droppedCmd h hb
    | nop => exact .responded _ h
    | init => exact .initialised h hb
    | compress last =>
      simp only [command, doCompress]
      cases hd : s.done with
      | true => exact .droppedSeq h hb hd
      | false =>
        cases hc : blockComplete s.block with
        | true =>
          simp only [Bool.false_eq_true, if_false, startBlock_complete last hc]
          exact .started last h hb hd hc
        | false =>
          simp only [Bool.false_eq_true, if_false, startBlock_unwritten last hc]
          exact .faulted _ h (fun _ => hb) hc

theorem effect_blockStore (i : Nat) (bytes : List Byte) {s : State} (h : s.fault = none) (hi : i + bytes.length ≤ 64) :
    Effect s (blockStore i bytes s) := by
  cases hb : s.busy with
  | true => rw [blockStore_busy _ _ hb]; exact .droppedBusy h hb
  | false => rw [blockStore_idle _ _ hb]; exact .stored i bytes h hb hi

theorem effect_load8 (off : BitVec 8) {s : State} (h : s.fault = none) : Effect s (load8 off s) := by
  unfold load8
  split <;> try exact .responded _ h
  rename_i hr
  cases hv : blockRead s.block (blockIndex off) with
  | some v => exact .responded _ h
  | none =>
    refine .faulted _ h (by simp) ?_
    by_contra hc
    obtain ⟨v, hv'⟩ := blockRead_of_complete (by simpa using hc) (blockIndex_lt hr)
    simp [hv] at hv'

theorem effect_load32 (off : BitVec 8) {s : State} (h : s.fault = none) (ha : off.extractLsb' 0 2 = 0) :
    Effect s (load32 off s) := by
  unfold load32
  split <;> try exact .responded _ h
  rename_i hr
  cases hv : blockReadWord s.block (blockIndex off) with
  | some v => exact .responded _ h
  | none =>
    refine .faulted _ h (by simp) ?_
    by_contra hc
    obtain ⟨v, hv'⟩ := blockReadWord_of_complete (by simpa using hc) (blockIndex_word hr ha)
    simp [hv] at hv'

theorem effect_store8 (off : BitVec 8) (v : Byte) {s : State} (h : s.fault = none) : Effect s (store8 off v s) := by
  unfold store8
  split <;> try exact .responded _ h
  rename_i hr
  exact effect_blockStore _ _ h (by have := blockIndex_lt hr; simp; omega)

theorem effect_store32 (off : BitVec 8) (v : Word) {s : State} (h : s.fault = none) (ha : off.extractLsb' 0 2 = 0) :
    Effect s (store32 off v s) := by
  unfold store32
  split <;> try exact .responded _ h
  · exact effect_command _ h
  · rename_i hr
    exact effect_blockStore _ _ h (by have := blockIndex_word hr ha; simp [wordBytes]; omega)

theorem effect_ifAdmitted {dir : Dir} {size : Nat} {off : BitVec 8} {effect : State → State} {s : State} (h : s.fault = none)
    (he : checkAccess dir size off s.done = none → Effect s (effect s)) : Effect s (ifAdmitted dir size off effect s) := by
  obtain ⟨c, _, e⟩ | ⟨hn, e⟩ := ifAdmitted_cases dir size off effect s
  · rw [e]; exact .responded _ h
  · rw [e]; exact he hn

theorem effect_live {f : State → State} {s t : State} (h : live f s = .next t)
    (he : s.fault = none → Effect s (f s)) : Effect s t := by
  obtain ⟨h1, rfl⟩ | ⟨h1, rfl⟩ := live_next h
  · exact he h1
  · exact .quiescent h1

/-- A round operation answers the round step in its own round, and the same state where a fault is recorded. -/
theorem roundOperation_next {sel : BitVec 2} {s t : State} (h : roundOperation sel s = .next t) :
    (s.fault ≠ none ∧ t = s) ∨ (s.fault = none ∧ roundEnabled sel s = true ∧ t = roundStep s) := by
  unfold roundOperation at h
  split at h
  · rename_i hf; cases h; exact .inl ⟨by simp [hf], rfl⟩
  · rename_i hf
    split at h
    · rename_i he; cases h; exact .inr ⟨hf, he, rfl⟩
    · cases h

theorem roundEnabled_iff {sel : BitVec 2} {s : State} :
    roundEnabled sel s = true ↔ s.busy = true ∧ s.j.toNat < 64 ∧ selOf (roundIndex s) = sel := by
  simp [roundEnabled, and_assoc]

/-- The instructions of the CTRL and BUS formats: those a host access can carry. -/
def IsAccess (i : Instr) : Prop := ∃ a : Access, carrier (encode i) = some a

/-- Whatever an access's instruction does is one of the effects. -/
theorem exec_effect {i : Instr} {s t : State} (hi : IsAccess i) (h : exec i s = .next t) : Effect s t := by
  cases i with
  | nop => exact effect_live h fun hf => effect_command .nop hf
  | init => exact effect_live h fun hf => effect_command .init hf
  | compress last => exact effect_live h fun hf => effect_command (.compress last) hf
  | rd8 off => exact effect_live h fun hf => effect_ifAdmitted hf fun _ => effect_load8 off hf
  | wr8 off v => exact effect_live h fun hf => effect_ifAdmitted hf fun _ => effect_store8 off v hf
  | rd32 off =>
    exact effect_live h fun hf => effect_ifAdmitted hf fun ha => effect_load32 off hf ((checkAccess_none ha).2.1 rfl)
  | wr32 off v =>
    exact effect_live h fun hf => effect_ifAdmitted hf fun ha => effect_store32 off v hf ((checkAccess_none ha).2.1 rfl)
  | roundF => obtain ⟨a, ha⟩ := hi; cases ha
  | roundG => obtain ⟨a, ha⟩ := hi; cases ha
  | roundH => obtain ⟨a, ha⟩ := hi; cases ha
  | roundI => obtain ⟨a, ha⟩ := hi; cases ha

/-- The instruction of a host access is of the CTRL or BUS format. -/
theorem decodeBus_access {op : BitVec 3} {off : BitVec 8} {data : Word} {i : Instr}
    (h : decodeBus op off data = .ok i) : IsAccess i := by
  unfold decodeBus at h
  split at h <;> cases h
  · exact ⟨_, rfl⟩
  · exact ⟨_, rfl⟩
  · exact ⟨_, rfl⟩
  · unfold decodeWr32
    split
    · cases decodeCtrl data <;> exact ⟨_, rfl⟩
    · exact ⟨_, rfl⟩

/-- A host access does one of the effects, also one that is no instruction. -/
theorem hostTurn_effect {a : Access} {s t : State} (h : hostTurn a s = .next t) : Effect s t := by
  unfold hostTurn at h
  split at h
  · rename_i i hi
    exact exec_effect (decodeBus_access hi) h
  · exact effect_live h fun hf => effect_ifAdmitted hf fun _ => .responded _ hf

/-- A step of a running machine answers a next state, and so does one of a quiescent machine. -/
theorem live_answers (f : State → State) (s : State) : ∃ t, live f s = .next t := by
  cases h : s.fault with
  | none => exact ⟨_, live_running f h⟩
  | some r => exact ⟨_, live_quiescent f h⟩

/-- The instruction of a host access answers a next state in every state. -/
theorem decodeBus_answers {op : BitVec 3} {off : BitVec 8} {data : Word} {i : Instr}
    (h : decodeBus op off data = .ok i) (s : State) : ∃ t, exec i s = .next t := by
  unfold decodeBus at h
  split at h <;> cases h
  · exact live_answers _ _
  · exact live_answers _ _
  · exact live_answers _ _
  · unfold decodeWr32
    split
    · cases decodeCtrl data <;> exact live_answers _ _
    · exact live_answers _ _

/-- A host access always answers a next state. -/
theorem hostTurn_answers (a : Access) (s : State) : ∃ t, hostTurn a s = .next t := by
  unfold hostTurn
  split
  · rename_i i h; exact decodeBus_answers h s
  · exact live_answers _ _

/-- The selector of the round is the one whose operation the engine executes. -/
theorem exec_decodeRsel (sel : BitVec 2) (s : State) : exec (decodeRsel sel) s = roundOperation sel s := by
  revert sel
  have : ∀ sel : BitVec 2, sel = 0 ∨ sel = 1 ∨ sel = 2 ∨ sel = 3 := by decide
  intro sel
  rcases this sel with rfl | rfl | rfl | rfl <;> rfl

/-- Everything an engine turn does. -/
theorem engineTurn_eq (s : State) :
    engineTurn s = .next
      (if s.fault = none ∧ s.busy = true then if s.j.toNat < 64 then roundStep s else accumulateStep s else s) := by
  unfold engineTurn
  cases hf : s.fault with
  | some f => simp
  | none =>
    cases hb : s.busy with
    | false => simp
    | true =>
      by_cases hj : s.j.toNat < 64
      · simp [hj, exec_decodeRsel, roundOperation, hf, roundEnabled, hb]
      · simp [hj]

end Sys2Proof.Machine
end

