-- ==== Sys2Proof/Laws/Step.lean ====
section
/-! SUPPORT. Everything one step can do. -/

namespace Sys2Proof.Machine

/-- `s` with its first turn taken off: the state a turn starts from. -/
def popTurn (s : State) : State := { s with turns := s.turns.tail }

/-- Everything one step can do: nothing but the turn's taking off; a host access's effect; a round; the accumulate step;
the reset input. -/
inductive StepEffect (s : State) : State → Prop where
  | idle : StepEffect s (popTurn s)
  | effect {t : State} (h : Effect (popTurn s) t) : StepEffect s t
  | rounded (h : s.fault = none) (hb : s.busy = true) (hj : s.j.toNat < 64) : StepEffect s (roundStep (popTurn s))
  | accumulated (h : s.fault = none) (hb : s.busy = true) (hj : ¬ s.j.toNat < 64) :
      StepEffect s (accumulateStep (popTurn s))
  | reset (h : s.turns.head? = some .reset) : StepEffect s (resetInput (popTurn s))

theorem engineTurn_effect (s : State) {t : State} (h : engineTurn (popTurn s) = .next t) : StepEffect s t := by
  rw [engineTurn_eq] at h
  cases h
  split
  · rename_i hb
    split
    · rename_i hj
      exact .rounded hb.1 hb.2 hj
    · rename_i hj
      exact .accumulated hb.1 hb.2 hj
  · exact .idle

theorem popTurn_nil {s : State} (h : s.turns = []) : popTurn s = s := by
  cases s; simp_all [popTurn]

theorem popTurn_cons {s : State} {t : Turn} {ts : List Turn} (h : s.turns = t :: ts) :
    popTurn s = { s with turns := ts } := by simp [popTurn, h]

/-- A step is the first turn on the rest of the state; with no turn left it is the engine's. -/
theorem step_eq (s : State) :
    step s = match s.turns.head? with
      | none => engineTurn (popTurn s)
      | some t => runTurn t (popTurn s) := by
  unfold step nextTurn
  cases h : s.turns with
  | nil => simp [popTurn_nil h]
  | cons t ts => simp [popTurn_cons h]

/-- The inversion of `step`. -/
theorem step_effect {s t : State} (h : step s = .next t) : StepEffect s t := by
  rw [step_eq] at h
  split at h
  · exact engineTurn_effect s h
  · rename_i u hu
    cases u with
    | host a => exact .effect (hostTurn_effect h)
    | engine => exact engineTurn_effect s h
    | reset => cases h; exact .reset hu

/-- An engine turn always answers a next state. -/
theorem engineTurn_answers (s : State) : ∃ t, engineTurn s = .next t := ⟨_, engineTurn_eq s⟩

/-! ### Runs of the machine behind the host's interface -/

@[simp] theorem core_run_zero (s : State) : Host.Core.run Sys2Proof.core 0 s = .next s := rfl

/-- A run whose first step answers a next state goes on from there. -/
theorem core_run_succ (n : Nat) {s t : State} (h : step s = .next t) :
    Host.Core.run Sys2Proof.core (n + 1) s = Host.Core.run Sys2Proof.core n t := by
  have hc : Sys2Proof.core.step s = .next t := h
  simp only [Host.Core.run, hc]

end Sys2Proof.Machine
end

