-- ==== Sys2Proof/Laws/HostRun.lean ====
section
/-! SUPPORT. What one turn, one move of a host at its program and of the engine beside it, and one more step of a run can do. -/

namespace Sys2Proof.Machine

/-! ### The bits of STATUS -/

theorem statusWord_busy (s : State) : (statusWord s).getLsbD 0 = s.busy := by
  unfold statusWord
  cases s.busy <;> cases s.done <;> cases s.errCmd <;> cases s.errBusy <;> cases s.errSeq <;> rfl

theorem statusWord_done (s : State) : (statusWord s).getLsbD 1 = s.done := by
  unfold statusWord
  cases s.busy <;> cases s.done <;> cases s.errCmd <;> cases s.errBusy <;> cases s.errSeq <;> rfl

/-! ### One turn -/

@[simp] theorem nextOr_next (s t : State) : nextOr s (.next t) = t := rfl

/-- A turn's outcome is the next state that `applyTurn` names. -/
theorem runTurn_applyTurn (u : Turn) (s : State) : runTurn u s = .next (applyTurn s u) := by
  have h : ∃ t, runTurn u s = .next t := by
    cases u with
    | host a => exact hostTurn_answers a s
    | engine => exact engineTurn_answers s
    | reset => exact ⟨_, rfl⟩
  obtain ⟨t, h⟩ := h
  simp [applyTurn, h]

/-- Everything a host's turn can do. -/
theorem applyTurn_host_effect (a : Access) (s : State) : Effect s (applyTurn s (.host a)) :=
  hostTurn_effect (runTurn_applyTurn (.host a) s)

/-- An access that decodes to an instruction is that instruction. -/
theorem applyTurn_host_exec {a : Access} {i : Instr} {s t : State} (hd : decode (.bus a.op a.off a.data) = .ok i)
    (h : exec i s = .next t) : applyTurn s (.host a) = t := by
  have hr : runTurn (.host a) s = .next t := by simp only [runTurn, hostTurn, hd, h]
  simp [applyTurn, hr]

/-- Everything the engine's turn can do. -/
theorem applyTurn_engine (s : State) :
    applyTurn s .engine =
      if s.fault = none ∧ s.busy = true then if s.j.toNat < 64 then roundStep s else accumulateStep s else s := by
  have h : runTurn .engine s = .next _ := engineTurn_eq s
  simp only [applyTurn, h, nextOr_next]

theorem applyTurn_engine_idle {s : State} (h : s.busy = false) : applyTurn s .engine = s := by
  simp [applyTurn_engine, h]

/-- The engine's turn while BUSY = 1: one round more, or the end of the busy period; nothing else of the engine's face. -/
theorem applyTurn_engine_busy {s : State} (hf : s.fault = none) (hb : s.busy = true) :
    let t := applyTurn s .engine
    t.fault = none ∧ t.last = s.last ∧ t.block = s.block ∧ t.responses = s.responses ∧
      ((t.busy = true ∧ t.j.toNat = s.j.toNat + 1 ∧ t.j.toNat ≤ 64) ∨
        (t.busy = false ∧ t.j = 0 ∧ t.done = s.last)) := by
  rw [applyTurn_engine]
  simp only [hf, hb, and_self, if_true]
  split
  · rename_i hj
    have h1 : (roundStep s).j.toNat = s.j.toNat + 1 := by
      show (s.j + 1).toNat = _
      rw [BitVec.toNat_add]; simp; omega
    exact ⟨hf, rfl, rfl, rfl, .inl ⟨hb, h1, by omega⟩⟩
  · exact ⟨hf, rfl, rfl, rfl, .inr ⟨rfl, rfl, rfl⟩⟩

/-- A read of STATUS. -/
theorem applyTurn_status {s : State} (h : s.fault = none) :
    applyTurn s (.host (rd32Access 0x04)) = respond (.data32 (statusWord s)) s := by
  have hc : checkAccess .read 4 0x04 s.done = none := by cases s.done <;> rfl
  refine applyTurn_host_exec (i := .rd32 0x04) rfl ?_
  simp only [exec, execRd32, live_running _ h, ifAdmitted, hc]
  rfl

theorem applyTurn_quiescent {s : State} (a : Access) (h : s.fault ≠ none) : applyTurn s (.host a) = s := by
  have he := applyTurn_host_effect a s
  generalize applyTurn s (.host a) = t at he
  cases he <;> first | rfl | contradiction

/-! ### One move -/

@[simp] theorem move_engine (r : HostRun) : move r .engine = { r with engine := applyTurn r.engine .engine } := rfl

theorem move_host_done {r : HostRun} (h : r.program = []) : move r .host = r := by simp [move, hostMove, h]

theorem move_host_access {r : HostRun} {a : Access} {rest : List HostOp} (h : r.program = .access a :: rest) :
    move r .host = { r with program := rest, engine := applyTurn r.engine (.host a) } := by
  simp [move, hostMove, h]

theorem move_host_poll_busy {r : HostRun} {rest : List HostOp} (h : r.program = .poll :: rest)
    (hf : r.engine.fault = none) (hb : r.engine.busy = true) :
    move r .host = { r with engine := respond (.data32 (statusWord r.engine)) r.engine } := by
  simp only [move, hostMove, h, pollRead, applyTurn_status hf]
  simp [accessResult, respond, -BitVec.getLsbD_eq_getElem, statusWord_busy, hb]

theorem move_host_poll_idle {r : HostRun} {rest : List HostOp} (h : r.program = .poll :: rest)
    (hf : r.engine.fault = none) (hb : r.engine.busy = false) :
    move r .host =
      ⟨rest, statusWord r.engine :: r.polls, respond (.data32 (statusWord r.engine)) r.engine⟩ := by
  simp only [move, hostMove, h, pollRead, applyTurn_status hf]
  simp [accessResult, respond, -BitVec.getLsbD_eq_getElem, statusWord_busy, hb]

/-- Everything a move does to the engine: nothing, or one turn. -/
theorem move_turn (r : HostRun) (a : Agent) :
    (move r a).engine = r.engine ∨ ∃ u, u ≠ .reset ∧ (move r a).engine = applyTurn r.engine u := by
  cases a with
  | engine => exact .inr ⟨.engine, by simp, rfl⟩
  | host =>
    cases h : r.program with
    | nil => rw [move_host_done h]; exact .inl rfl
    | cons op rest =>
      cases op with
      | access a => rw [move_host_access h]; exact .inr ⟨.host a, by simp, rfl⟩
      | poll =>
        refine .inr ⟨.host (rd32Access 0x04), by simp, ?_⟩
        simp only [move, hostMove, h, pollRead]
        split
        · split <;> rfl
        · rfl

/-! ### Runs -/

@[simp] theorem runMoves_nil (r : HostRun) : runMoves r [] = r := rfl

@[simp] theorem runMoves_cons (r : HostRun) (a : Agent) (as : List Agent) :
    runMoves r (a :: as) = runMoves (move r a) as := rfl

theorem runMoves_append (r : HostRun) (as bs : List Agent) :
    runMoves r (as ++ bs) = runMoves (runMoves r as) bs := by simp [runMoves]

@[simp] theorem runAgents_zero (order : Nat → Agent) (r : HostRun) : runAgents order 0 r = r := rfl

/-- The last of `n + 1` moves is the order's move number `n`. -/
theorem runAgents_succ (order : Nat → Agent) (n : Nat) (r : HostRun) :
    runAgents order (n + 1) r = move (runAgents order n r) (order n) := by
  simp [runAgents, List.range_succ, runMoves_append]

/-- A run goes on under the rest of its order. -/
theorem runAgents_add (order : Nat → Agent) (n k : Nat) (r : HostRun) :
    runAgents order (n + k) r = runAgents (fun i => order (n + i)) k (runAgents order n r) := by
  induction k with
  | zero => rfl
  | succ k ih => rw [← Nat.add_assoc, runAgents_succ, ih, runAgents_succ]

/-- The rest of a fair order is fair. -/
theorem fair_shift {α : Type} {agent : α} {order : Nat → α} (h : Fair agent order) (n : Nat) :
    Fair agent fun i => order (n + i) := by
  intro k
  obtain ⟨m, hm, ho⟩ := h (n + k)
  refine ⟨m - n, by omega, ?_⟩
  show order (n + (m - n)) = agent
  rw [Nat.add_sub_cancel' (by omega)]
  exact ho

@[simp] theorem runTurns_zero (order : Nat → Turn) (s : State) : runTurns order 0 s = s := rfl

theorem runTurns_succ (order : Nat → Turn) (n : Nat) (s : State) :
    runTurns order (n + 1) s = applyTurn (runTurns order n s) (order n) := by
  simp [runTurns, List.range_succ]

/-- A turn neither reads nor writes the coming turns. -/
theorem step_first {s : State} {u : Turn} {us : List Turn} (h : s.turns = u :: us) :
    step s = .next (applyTurn { s with turns := us } u) := by
  rw [step_eq, popTurn_cons h, h]
  exact runTurn_applyTurn u _

end Sys2Proof.Machine
end

