-- ==== Sys2Proof/Laws/PerInstr.lean ====
section
/-! SUPPORT. The family `TableRow`: every instruction's encoding has the fixed bits of its row of spec/opcode_table.json
(its "match" under its "mask"), in the row's format. -/

namespace Sys2Proof.Laws.TableRow

/-- A row's format, match and mask. -/
inductive Row where
  | ctrl (pattern mask : Word)
  | bus (pattern mask : BitVec 3)
  | rsel (pattern mask : BitVec 2)

/-- The row of each instruction, as the table gives it. -/
def row : Instr → Row
  | .nop => .ctrl 0x00000000 0xFFFFFFFF
  | .init => .ctrl 0x00000001 0xFFFFFFFF
  | .compress _ => .ctrl 0x00000002 0xFFFFFFFB
  | .rd8 _ => .bus 0b000 0b111
  | .wr8 _ _ => .bus 0b001 0b111
  | .rd32 _ => .bus 0b100 0b111
  | .wr32 _ _ => .bus 0b101 0b111
  | .roundF => .rsel 0b00 0b11
  | .roundG => .rsel 0b01 0b11
  | .roundH => .rsel 0b10 0b11
  | .roundI => .rsel 0b11 0b11

/-- An item of the row's format has the row's fixed bits. -/
def Row.fits : Row → Item → Prop
  | .ctrl pattern mask, .ctrl w => w &&& mask = pattern
  | .bus pattern mask, .bus op _ _ => op &&& mask = pattern
  | .rsel pattern mask, .rsel sel => sel &&& mask = pattern
  | _, _ => False

/-- The encoding of an instruction has its row's fixed bits. -/
def Statement (i : Instr) : Prop := (row i).fits (encode i)

theorem nop : Statement .nop := by show (0x00000000 : Word) &&& 0xFFFFFFFF = 0x00000000; decide

theorem init : Statement .init := by show (0x00000001 : Word) &&& 0xFFFFFFFF = 0x00000001; decide

theorem compress (last : Bool) : Statement (.compress last) := by
  show (if last then (0x00000006 : Word) else 0x00000002) &&& 0xFFFFFFFB = 0x00000002
  cases last <;> decide

theorem rd8 (off : BitVec 8) : Statement (.rd8 off) := by show (0b000 : BitVec 3) &&& 0b111 = 0b000; decide

theorem wr8 (off : BitVec 8) (v : Byte) : Statement (.wr8 off v) := by
  show (0b001 : BitVec 3) &&& 0b111 = 0b001; decide

theorem rd32 (off : BitVec 8) : Statement (.rd32 off) := by show (0b100 : BitVec 3) &&& 0b111 = 0b100; decide

theorem wr32 (off : BitVec 8) (v : Word) : Statement (.wr32 off v) := by
  show (0b101 : BitVec 3) &&& 0b111 = 0b101; decide

theorem roundF : Statement .roundF := by show (0b00 : BitVec 2) &&& 0b11 = 0b00; decide

theorem roundG : Statement .roundG := by show (0b01 : BitVec 2) &&& 0b11 = 0b01; decide

theorem roundH : Statement .roundH := by show (0b10 : BitVec 2) &&& 0b11 = 0b10; decide

theorem roundI : Statement .roundI := by show (0b11 : BitVec 2) &&& 0b11 = 0b11; decide

end Sys2Proof.Laws.TableRow
end

