-- ==== Sys2Proof/Tests/Slice0.lean ====
section
/-! SUPPORT. Tests. Every expected value is the spec's (95_test_vectors.md, or the rule's own example), and one witness for
the hypotheses of every statement of Certificates/Slice0/Obligations.lean that has any. -/

namespace Sys2Proof.Tests

open Sys2Proof.Machine

/-! ### Well-formedness and decoding -/

theorem test_wellFormed_refuses_init_spelled_wr32 : Instr.wellFormed (.wr32 0x00 0x00000001) = false := by decide

theorem test_wellFormed_admits_illegal_ctrl_word : Instr.wellFormed (.wr32 0x00 0x00000003) = true := by decide

/-- 30_encoding.md R79. -/
theorem test_decode_compress_last : decode (.ctrl 0b00000000000000000000000000000110) = .ok (.compress true) := rfl

/-- 30_encoding.md R72. -/
theorem test_decode_nop : decode (.ctrl 0b00000000000000000000000000000000) = .ok .nop := rfl

/-- 30_encoding.md R72. -/
theorem test_decode_init : decode (.ctrl 0b00000000000000000000000000000001) = .ok .init := rfl

/-- 30_encoding.md R72. -/
theorem test_decode_compress : decode (.ctrl 0b00000000000000000000000000000010) = .ok (.compress false) := rfl

/-- 30_encoding.md R79: L = 1 with CMD = 01, RSVD not 0, CMD = 11. -/
theorem test_decode_illegal_ctrl :
    decodeCtrl 0x00000005 = .illegal ∧ decodeCtrl 0x80000001 = .illegal ∧ decodeCtrl 0x00000003 = .illegal ∧
      decodeCtrl 0x00000004 = .illegal ∧ decodeCtrl 0x00000007 = .illegal ∧ decodeCtrl 0x0000000A = .illegal := by decide

/-- 30_encoding.md R74: op[0] the direction, op[2:1] the size code. -/
theorem test_decode_bus :
    decode (.bus 0b000 0xA1 0) = .ok (.rd8 0xA1) ∧ decode (.bus 0b001 0x7F 0x00000061) = .ok (.wr8 0x7F 0x61) ∧
      decode (.bus 0b100 0x04 0) = .ok (.rd32 0x04) ∧
      decode (.bus 0b101 0x40 0x80636261) = .ok (.wr32 0x40 0x80636261) := ⟨rfl, rfl, rfl, rfl⟩

/-- 30_encoding.md R74: 2-byte and 8-byte transfers. -/
theorem test_decode_bad_size :
    decode (.bus 0b010 0x40 0) = .error (.badSize 0b010) ∧ decode (.bus 0b011 0x40 0) = .error (.badSize 0b011) ∧
      decode (.bus 0b110 0x40 0) = .error (.badSize 0b110) ∧ decode (.bus 0b111 0x41 0) = .error (.badSize 0b111) :=
  ⟨rfl, rfl, rfl, rfl⟩

/-- 30_encoding.md R75. -/
theorem test_decode_rsel :
    decode (.rsel 0b00) = .ok .roundF ∧ decode (.rsel 0b01) = .ok .roundG ∧ decode (.rsel 0b10) = .ok .roundH ∧
      decode (.rsel 0b11) = .ok .roundI := ⟨rfl, rfl, rfl, rfl⟩

/-- Every row of the opcode table, in the width its bits have. -/
theorem test_table_words :
    [decodeTableWord 32 0, decodeTableWord 32 1, decodeTableWord 32 2, decodeTableWord 3 0, decodeTableWord 3 1,
      decodeTableWord 3 4, decodeTableWord 3 5, decodeTableWord 2 0, decodeTableWord 2 1, decodeTableWord 2 2,
      decodeTableWord 2 3] =
    [some .nop, some .init, some (.compress false), some (.rd8 0), some (.wr8 0 0), some (.rd32 0), some .nop,
      some .roundF, some .roundG, some .roundH, some .roundI] := rfl

/-! ### Primitives and ROMs -/

/-- 95_test_vectors.md 2.1. -/
theorem test_add32 :
    add32 0xFFFFFFFF 0x00000001 = 0x00000000 ∧ add32 0x80000000 0x80000000 = 0x00000000 ∧
      add32 0xFFFFFFFF 0xFFFFFFFF = 0xFFFFFFFE ∧ add32 0x67452301 0xEFCDAB89 = 0x5712CE8A := by decide

/-- 95_test_vectors.md 2.2. -/
theorem test_rotl32 :
    rotl32 0x12345678 7 = some 0x1A2B3C09 ∧ rotl32 0x12345678 20 = some 0x67812345 ∧
      rotl32 0x80000001 31 = some 0xC0000000 ∧ rotl32 0x12345678 0 = none ∧ rotl32 0x12345678 32 = none := by decide

/-- 95_test_vectors.md 2.4, the row that holds the whole truth table. -/
theorem test_round_functions :
    fnF 0xAAAAAAAA 0xCCCCCCCC 0xF0F0F0F0 = 0xD8D8D8D8 ∧ fnG 0xAAAAAAAA 0xCCCCCCCC 0xF0F0F0F0 = 0xACACACAC ∧
      fnH 0xAAAAAAAA 0xCCCCCCCC 0xF0F0F0F0 = 0x96969696 ∧ fnI 0xAAAAAAAA 0xCCCCCCCC 0xF0F0F0F0 = 0x63636363 := by
  decide

/-- 95_test_vectors.md 2.5: the sum of all T[j] mod 2^32. -/
theorem test_tRom_sum : tRom.length = 64 ∧ tRom.foldl add32 0 = 0x27F3A0BC := by decide +kernel

/-- 95_test_vectors.md 2.5, rows j = 15, 31, 37, 51: k, s and T[j]. -/
theorem test_schedule :
    (messageIndex 15, shiftAmount (selOf 15) (colOf 15), roundConstant 15) = (15, 22, 0x49B40821) ∧
      (messageIndex 31, shiftAmount (selOf 31) (colOf 31), roundConstant 31) = (12, 20, 0x8D2A4C8A) ∧
      (messageIndex 37, shiftAmount (selOf 37) (colOf 37), roundConstant 37) = (4, 11, 0x4BDECFA9) ∧
      (messageIndex 51, shiftAmount (selOf 51) (colOf 51), roundConstant 51) = (5, 21, 0xFC93A039) := by decide

/-- 95_test_vectors.md 2.9: hexchar at both ends of its two ranges. -/
theorem test_hexchar : hexchar 0 = 0x30 ∧ hexchar 9 = 0x39 ∧ hexchar 10 = 0x61 ∧ hexchar 15 = 0x66 := by decide

/-! ### Small states -/

/-- The padded block of the empty message (95_test_vectors.md 2.7, trace E). -/
def emptyBlock : Memory := blockWriteBytes [] 0 (0x80 :: List.replicate 63 0x00)

/-- Idle with that block loaded. -/
def loaded : State := { State.reset with block := emptyBlock }

/-- Busy before round `j`, with the working registers given. -/
def busyAt (j : BitVec 7) (w : Quad) : State := { loaded with busy := true, j := j, work := w }

/-- COMPRESS.LAST of the empty message done (95_test_vectors.md, end state of P1). -/
def finished : State :=
  { loaded with chain := ⟨0xD98C1DD4, 0x04B2008F, 0x980980E9, 0x7E42F8EC⟩, last := true, done := true }

/-- The state an outcome answers, `loaded` if it answers none. -/
def after : Host.Outcome State Fault Refusal → State
  | .next s => s
  | .fault _ => loaded
  | .refused _ => loaded

/-! ### One step of each instruction -/

/-- 44_commands.md R162: NOP with DONE = 1. -/
theorem test_nop : exec .nop finished = .next { finished with responses := [.ok] } := rfl

/-- 44_commands.md R163, example. -/
theorem test_init : (after (exec .init finished)).chain.a = 0x67452301 ∧
    statusWord (after (exec .init finished)) = 0x00000000 := ⟨rfl, rfl⟩

/-- 95_test_vectors.md 2.10: COMPRESS.LAST with the block written. -/
theorem test_compress : statusWord (after (exec (.compress true) loaded)) = 0x00000001 ∧
    (after (exec (.compress true) loaded)).work = iv := by decide +kernel

/-- 95_test_vectors.md P6: COMPRESS with a block byte unwritten. -/
theorem test_compress_unwritten : (after (exec (.compress true) State.reset)).fault = some .unwrittenBlockByte ∧
    (after (exec (.compress true) State.reset)).busy = false := by decide +kernel

/-- 95_test_vectors.md 2.10: ErrSeq, and ErrBusy before ErrCmd. -/
theorem test_ctrl_errors : statusWord (after (exec (.compress false) finished)) = 0x00000012 ∧
    statusWord (after (exec (.wr32 0x00 0x00000003) (busyAt 0 iv))) = 0x00000009 ∧
    statusWord (after (exec (.wr32 0x00 0x80000001) loaded)) = 0x00000004 := ⟨rfl, rfl, rfl⟩

/-- 95_test_vectors.md P1, rows 18, 19, 23: STATUS, the first digest word and the first hex word. -/
theorem test_rd32 : (after (exec (.rd32 0x04) finished)).responses = [.data32 0x00000002] ∧
    (after (exec (.rd32 0x80) finished)).responses = [.data32 0xD98C1DD4] ∧
    (after (exec (.rd32 0xA0) finished)).responses = [.data32 0x64313464] ∧
    (after (exec (.rd32 0xBC) finished)).responses = [.data32 0x65373234] := ⟨rfl, rfl, rfl, rfl⟩

/-- 95_test_vectors.md 2.11: priority examples. -/
theorem test_rd32_refused : (after (exec (.rd32 0x0A) loaded)).responses = [.busError .misaligned] ∧
    (after (exec (.rd32 0x80) loaded)).responses = [.busError .notReady] ∧
    (after (exec (.rd32 0x3C) loaded)).responses = [.busError .unmapped] := ⟨rfl, rfl, rfl⟩

/-- 95_test_vectors.md 2.9: the ends of the digest regions. -/
theorem test_rd8 : (after (exec (.rd8 0x8F) finished)).responses = [.data8 0x7E] ∧
    (after (exec (.rd8 0xA1) finished)).responses = [.data8 0x34] ∧
    (after (exec (.rd8 0xBF) finished)).responses = [.data8 0x65] ∧
    (after (exec (.rd8 0x40) finished)).responses = [.data8 0x80] := by decide +kernel

/-- 95_test_vectors.md 2.10 and P5: an unwritten byte, and BAD_SIZE at STATUS. -/
theorem test_rd8_refused : (after (exec (.rd8 0x40) State.reset)).fault = some .unwrittenBlockRead ∧
    (after (exec (.rd8 0x05) finished)).responses = [.busError .badSize] := ⟨rfl, rfl⟩

/-- 44_commands.md R167, example. -/
theorem test_wr32 : (after (exec (.wr32 0x40 0x80636261) State.reset)).block =
    [(0, 0x61), (1, 0x62), (2, 0x63), (3, 0x80)] := rfl

/-- 95_test_vectors.md 2.11: `WR32 0x80` with DONE = 0 is RO_WRITE; 2.10: a write while BUSY = 1. -/
theorem test_wr32_refused : (after (exec (.wr32 0x80 0) loaded)).responses = [.busError .roWrite] ∧
    (after (exec (.wr32 0x40 0) (busyAt 0 iv))).errBusy = true := ⟨rfl, rfl⟩

/-- 44_commands.md R168, example. -/
theorem test_wr8 : (after (exec (.wr8 0x7F 0x00) State.reset)).block = [(63, 0x00)] := rfl

/-- 95_test_vectors.md 2.11: `WR8 0x04` is BAD_SIZE, not RO_WRITE; `WR8 0xA0` is RO_WRITE. -/
theorem test_wr8_refused : (after (exec (.wr8 0x04 0x00) finished)).responses = [.busError .badSize] ∧
    (after (exec (.wr8 0xA0 0x00) finished)).responses = [.busError .roWrite] := ⟨rfl, rfl⟩

/-- 95_test_vectors.md 2.7, trace E, round 0. -/
theorem test_roundF : (after (exec .roundF (busyAt 0 iv))).work =
    ⟨0x10325476, 0xA5202774, 0xEFCDAB89, 0x98BADCFE⟩ := by decide +kernel

/-- Trace E, round 19 (X[0] is read) from the registers after round 18. -/
theorem test_roundG : (after (exec .roundG (busyAt 19 ⟨0xD6819C6A, 0xC095F13A, 0x7BD57A3A, 0x1C7D7513⟩))).work =
    ⟨0x1C7D7513, 0xBD782E17, 0xC095F13A, 0x7BD57A3A⟩ := by decide +kernel

/-- Trace E, round 41 from the registers after round 40. -/
theorem test_roundH : (after (exec .roundH (busyAt 41 ⟨0xABC34E16, 0x4497169D, 0xC5DC8C15, 0x91CA4CB7⟩))).work =
    ⟨0x91CA4CB7, 0x76FD93D4, 0x4497169D, 0xC5DC8C15⟩ := by decide +kernel

/-- Trace E, round 63 from the registers after round 62. -/
theorem test_roundI : (after (exec .roundI (busyAt 63 ⟨0x30130182, 0xFF4EA3EB, 0x6E10A476, 0x7246FAD3⟩))).work =
    ⟨0x7246FAD3, 0x14E45506, 0xFF4EA3EB, 0x6E10A476⟩ := by decide +kernel

/-- 42_compression.md R133, example: the engine's step at j = 64. -/
theorem test_accumulate :
    (after (step (busyAt 64 ⟨0x7246FAD3, 0x14E45506, 0xFF4EA3EB, 0x6E10A476⟩))).chain =
    ⟨0xD98C1DD4, 0x04B2008F, 0x980980E9, 0x7E42F8EC⟩ := rfl

/-- 95_test_vectors.md 1.2: the digest words of "abc". -/
theorem test_abc : chainOfMessage [0x61, 0x62, 0x63] = ⟨0x98500190, 0xB04FD23C, 0x7D3F96D6, 0x727FE128⟩ := by
  decide +kernel

/-- 95_test_vectors.md 2.12: z for n = 0, 54, 55, 56, 57, 119 and the length field of n = 54. -/
theorem test_padding : [0, 54, 55, 56, 57, 119].map zeroBytes = [55, 1, 0, 63, 62, 0] ∧
    lengthField 54 = [0xb0, 0x01, 0, 0, 0, 0, 0, 0] := by decide

/-- 95_test_vectors.md 2.11: an 8-byte write at the misaligned unmapped offset 0x09 is BAD_SIZE. -/
theorem test_bad_size_access :
    (after (hostTurn ⟨0b111, 0x09, 0⟩ loaded)).responses = [.busError .badSize] := rfl

/-! ### Witnesses: a concrete case that meets the hypotheses of each statement, and of each of its clauses -/

/-- `s` with these turns to come. -/
def withTurns (ts : List Turn) (s : State) : State := { s with turns := ts }

/-- The host's access of `NOP`, of `INIT` and a read of STATUS. -/
def nopTurn : Turn := .host ⟨0b101, 0x00, 0x00000000⟩

def initTurn : Turn := .host ⟨0b101, 0x00, 0x00000001⟩

def statusTurn : Turn := .host ⟨0b100, 0x04, 0⟩

/-- A state with the fault of an unwritten block byte. -/
def faulted : State := { State.reset with fault := some .unwrittenBlockByte }

theorem test_witness_DecodeOfEncodeIsIdentity :
    Instr.wellFormed (.wr32 0xFF 0xFFFFFFFF) = true ∧
      carrier (encode (.wr32 0xFF 0xFFFFFFFF)) = some ⟨0b101, 0xFF, 0xFFFFFFFF⟩ ∧ Instr.wellFormed .roundI = true :=
  ⟨rfl, rfl, rfl⟩

theorem test_witness_DecodedInstructionIsWellFormed :
    decode (.bus 0b101 0x00 0x00000006) = .ok (.compress true) ∧
      decode (.bus 0b101 0x00 0x00000007) = .ok (.wr32 0x00 0x00000007) := ⟨rfl, rfl⟩

theorem test_witness_WordsOfAFormatHaveOneMeaning :
    decode (.ctrl 0x00000006) = .ok (.compress true) ∧ decode (.rsel 0b11) = .ok .roundI ∧
      decode (.bus 0b001 0x7F 0x00000161) = .ok (.wr8 0x7F 0x61) ∧
      decode (.bus 0b001 0x7F 0x00000061) = .ok (.wr8 0x7F 0x61) ∧
      decode (.bus 0b101 0x40 0xFFFFFFFF) = .ok (.wr32 0x40 0xFFFFFFFF) := ⟨rfl, rfl, rfl, rfl, rfl⟩

theorem test_witness_StepRunsDecodedInstruction_host :
    (withTurns [nopTurn] loaded).turns = [nopTurn] ∧ decode (.bus 0b101 0x00 0x00000000) = .ok .nop := ⟨rfl, rfl⟩

theorem test_witness_StepRunsDecodedInstruction_badSize :
    (withTurns [.host ⟨0b010, 0x40, 0⟩] loaded).turns = [.host ⟨0b010, 0x40, 0⟩] ∧
      decode (.bus 0b010 0x40 0) = .error (.badSize 0b010) ∧ (withTurns [.host ⟨0b010, 0x40, 0⟩] loaded).fault = none :=
  ⟨rfl, rfl, rfl⟩

theorem test_witness_StepRunsDecodedInstruction_engine :
    (withTurns [.engine] (busyAt 63 iv)).turns = [.engine] ∧ (busyAt 63 iv).fault = none ∧ (busyAt 63 iv).busy = true ∧
      (busyAt 63 iv).j.toNat < 64 ∧ decode (.rsel (BitVec.ofNat 2 ((busyAt 63 iv).j.toNat / 16))) = .ok .roundI :=
  ⟨rfl, rfl, rfl, by decide, rfl⟩

theorem test_witness_StepRunsDecodedInstruction_reset :
    (withTurns [.reset] loaded).turns = [.reset] ∧ (busyAt 0 iv).turns = [] := ⟨rfl, rfl⟩

theorem test_witness_ResetLeavesResetValues : (withTurns [.reset, .engine] finished).turns = [.reset, .engine] := rfl

theorem test_witness_StepKeepsInvariant :
    EngineInv (busyAt 63 iv) ∧ ∃ t, step (busyAt 63 iv) = .next t := ⟨by decide +kernel, _, rfl⟩

theorem test_witness_StepKeepsInvariant_accumulate :
    EngineInv (busyAt 64 iv) ∧ ∃ t, step (busyAt 64 iv) = .next t := ⟨by decide +kernel, _, rfl⟩

theorem test_witness_FaultRecordIsPermanent :
    faulted.fault = some .unwrittenBlockByte ∧ (∃ t, step (withTurns [statusTurn] faulted) = .next t) ∧
      (withTurns [statusTurn] faulted).turns.head? ≠ some .reset ∧
      ∃ t, step (withTurns [.reset] faulted) = .next t := ⟨rfl, ⟨_, rfl⟩, by decide, _, rfl⟩

theorem test_witness_ErrorBitsAreSticky :
    let s := withTurns [initTurn] { finished with errCmd := true, errBusy := true, errSeq := true }
    (∃ t, step s = .next t) ∧ s.turns.head? ≠ some .reset ∧ s.errCmd = true ∧ s.errBusy = true ∧ s.errSeq = true ∧
      s.fault = none := ⟨⟨_, rfl⟩, by decide, rfl, rfl, rfl, rfl⟩

theorem test_witness_DigestIsStableWhileDone :
    let s := withTurns [nopTurn] finished
    EngineInv s ∧ s.done = true ∧ (∃ t, step s = .next t) ∧ s.turns.head? ≠ some .reset ∧
      decode (.bus 0b101 0x00 0x00000000) = .ok .nop := ⟨by decide +kernel, rfl, ⟨_, rfl⟩, by decide, rfl⟩

theorem test_witness_BlockAndChainAreFixedWhileBusy :
    (busyAt 64 iv).busy = true ∧ (∃ t, step (busyAt 64 iv) = .next t) ∧
      (∃ t, step (withTurns [.host ⟨0b101, 0x40, 0⟩] (busyAt 0 iv)) = .next t) ∧
      (busyAt 64 iv).turns.head? ≠ some .reset := ⟨rfl, ⟨_, rfl⟩, ⟨_, rfl⟩, by decide⟩

/-- Between the engine's steps: STATUS reads, a block write and an INIT, all while BUSY = 1. -/
def interleaved : List Turn :=
  List.replicate 31 .engine ++ [statusTurn, .host ⟨0b101, 0x40, 0⟩] ++ List.replicate 33 .engine ++ [initTurn]

theorem test_witness_CompressionRunsToCompress :
    let s := withTurns (.host ⟨0b101, 0x00, 0x00000006⟩ :: (interleaved ++ [.engine])) loaded
    s.fault = none ∧ s.busy = false ∧ s.done = false ∧ blockComplete s.block = true ∧ .reset ∉ interleaved ∧
      interleaved.count .engine = 64 := by decide +kernel

theorem test_witness_BusyPeriodEnds :
    let s := withTurns [statusTurn, .engine, initTurn] (busyAt 0 iv)
    EngineInv s ∧ s.fault = none ∧ s.busy = true ∧ .reset ∉ s.turns := by decide +kernel

theorem test_witness_RoundFCompletes :
    ∀ j : BitVec 7, j = 0 ∨ j = 15 → (busyAt j iv).fault = none ∧ (busyAt j iv).busy = true ∧ (busyAt j iv).j.toNat < 16 :=
  fun j hj => ⟨rfl, rfl, by rcases hj with rfl | rfl <;> decide⟩

theorem test_witness_RoundGCompletes :
    ∀ j : BitVec 7, j = 16 ∨ j = 31 → (busyAt j iv).fault = none ∧ (busyAt j iv).busy = true ∧
      16 ≤ (busyAt j iv).j.toNat ∧ (busyAt j iv).j.toNat < 32 :=
  fun j hj => ⟨rfl, rfl, by rcases hj with rfl | rfl <;> decide⟩

theorem test_witness_RoundHCompletes :
    ∀ j : BitVec 7, j = 32 ∨ j = 47 → (busyAt j iv).fault = none ∧ (busyAt j iv).busy = true ∧
      32 ≤ (busyAt j iv).j.toNat ∧ (busyAt j iv).j.toNat < 48 :=
  fun j hj => ⟨rfl, rfl, by rcases hj with rfl | rfl <;> decide⟩

theorem test_witness_RoundICompletes :
    ∀ j : BitVec 7, j = 48 ∨ j = 63 → (busyAt j iv).fault = none ∧ (busyAt j iv).busy = true ∧
      48 ≤ (busyAt j iv).j.toNat ∧ (busyAt j iv).j.toNat < 64 :=
  fun j hj => ⟨rfl, rfl, by rcases hj with rfl | rfl <;> decide⟩

/-- An idle engine, and a busy one in another group's round or at the accumulate step. -/
theorem test_witness_RoundOutsideItsTurnIsRefused :
    loaded.fault = none ∧ ¬ (loaded.busy = true ∧ loaded.j.toNat < 16) ∧
      ¬ ((busyAt 16 iv).busy = true ∧ (busyAt 16 iv).j.toNat < 16) ∧
      ¬ ((busyAt 15 iv).busy = true ∧ 16 ≤ (busyAt 15 iv).j.toNat ∧ (busyAt 15 iv).j.toNat < 32) ∧
      ¬ ((busyAt 48 iv).busy = true ∧ 32 ≤ (busyAt 48 iv).j.toNat ∧ (busyAt 48 iv).j.toNat < 48) ∧
      ¬ ((busyAt 64 iv).busy = true ∧ 48 ≤ (busyAt 64 iv).j.toNat ∧ (busyAt 64 iv).j.toNat < 64) := by decide +kernel

theorem test_witness_EngineTurnIsEngineStep :
    (withTurns [.engine] loaded).turns = [.engine] ∧ loaded.fault = none ∧ loaded.busy = false ∧
      (busyAt 63 iv).busy = true ∧ (busyAt 63 iv).j.toNat < 64 ∧ (busyAt 64 iv).busy = true ∧ (busyAt 64 iv).j = 64 := by
  decide +kernel

theorem test_witness_AccumulateStepClosesBlock :
    let s := withTurns [.engine] (busyAt 64 iv)
    s.turns = [.engine] ∧ s.fault = none ∧ s.busy = true ∧ s.j = 64 := by decide +kernel

theorem test_witness_EngineTurnRaisesNothing :
    (∃ t, engineTurn (busyAt 0 iv) = .next t) ∧ ∃ t, engineTurn (busyAt 64 iv) = .next t := ⟨⟨_, rfl⟩, _, rfl⟩

/-- 40_primitives.md R102 at both ends of 1..31 and just outside. -/
theorem test_witness_Rotl32BitsAndDomain :
    rotl32 0x80000001 1 = some 0x00000003 ∧ rotl32 0x80000001 31 = some 0xC0000000 ∧ rotl32 1 0 = none ∧
      rotl32 1 32 = none := by decide

theorem test_witness_RoundFunctionsFollowBitTable : (0 : Nat) < 32 ∧ (31 : Nat) < 32 := by decide

theorem test_witness_ScheduleFollowsTables :
    selOf 0 = 0b00 ∧ messageIndex 0 = 0 ∧ selOf 63 = 0b11 ∧ messageIndex 63 = 9 := by decide

theorem test_witness_MessageWordIsLittleEndian :
    blockRead emptyBlock (4 * (0 : BitVec 4).toNat) = some 0x80 ∧ blockRead emptyBlock 1 = some 0 ∧
      blockRead emptyBlock 2 = some 0 ∧ blockRead emptyBlock 3 = some 0 ∧
      blockRead emptyBlock (4 * (15 : BitVec 4).toNat + 3) = some 0 := by decide +kernel

theorem test_witness_DigestBytesAreLittleEndian :
    digestByte finished.chain (4 * 0 + 0) = 0xD4 ∧ digestByte finished.chain (4 * 3 + 3) = 0x7E := by decide

theorem test_witness_NopCompletes :
    loaded.fault = none ∧ loaded.busy = false ∧ (busyAt 0 iv).fault = none ∧ (busyAt 0 iv).busy = true :=
  ⟨rfl, rfl, rfl, rfl⟩

theorem test_witness_InitCompletes :
    finished.fault = none ∧ finished.busy = false ∧ (busyAt 64 iv).fault = none ∧ (busyAt 64 iv).busy = true :=
  ⟨rfl, rfl, rfl, rfl⟩

theorem test_witness_CompressStartsBlock :
    loaded.fault = none ∧ loaded.busy = false ∧ loaded.done = false ∧ (∀ i, i < 64 → written loaded.block i = true) := by
  decide +kernel

/-- All bytes written but the last. -/
theorem test_witness_CompressStartsBlock_unwritten :
    let s := { State.reset with block := blockWriteBytes [] 0 (List.replicate 63 0x00) }
    s.fault = none ∧ s.busy = false ∧ s.done = false ∧ written s.block 62 = true ∧ written s.block 63 = false := by
  decide +kernel

theorem test_witness_CompressCompletes :
    loaded.fault = none ∧ loaded.busy = false ∧ loaded.done = false ∧ (∀ i, i < 64 → written loaded.block i = true) := by
  decide +kernel

theorem test_witness_CompressAfterDoneIsDropped :
    finished.fault = none ∧ finished.busy = false ∧ finished.done = true := ⟨rfl, rfl, rfl⟩

theorem test_witness_WritesWhileBusyAreDropped :
    (busyAt 0 iv).fault = none ∧ (busyAt 0 iv).busy = true ∧ 0x40 ≤ (0x7C : BitVec 8).toNat ∧
      (0x7C : BitVec 8).toNat < 0x80 ∧ (0x7C : BitVec 8).toNat % 4 = 0 ∧ (0x7F : BitVec 8).toNat < 0x80 := by decide +kernel

theorem test_witness_IllegalCtrlWordIsDropped :
    loaded.fault = none ∧ loaded.busy = false ∧ (0x00000007 : Word) ≠ 0x00000000 ∧ (0x00000007 : Word) ≠ 0x00000001 ∧
      (0x00000007 : Word) ≠ 0x00000002 ∧ (0x00000007 : Word) ≠ 0x00000006 := by decide +kernel

theorem test_witness_AdmissionFollowsCheckOrder :
    loaded.fault = none ∧ checkAccess (opDir 0b011) (opSize 0b011) 0x41 loaded.done = some .badSize ∧
      checkAccess (opDir 0b101) (opSize 0b101) 0x04 loaded.done = some .roWrite := by decide +kernel

/-- One access for each cause, and one for each instruction. -/
theorem test_witness_BusErrorChangesNothing :
    loaded.fault = none ∧ checkAccess .read 1 0x00 loaded.done = some .badSize ∧
      checkAccess .write 4 0x41 loaded.done = some .misaligned ∧
      checkAccess .write 1 0xFF loaded.done = some .unmapped ∧ checkAccess .write 4 0x80 loaded.done = some .roWrite ∧
      checkAccess .read 4 0xBC loaded.done = some .notReady := by decide +kernel

/-- The first and the last word of BLOCK, an unwritten byte, and the digest regions with DONE = 1. -/
theorem test_witness_Rd32Completes :
    finished.fault = none ∧ blockRead finished.block 0 = some 0x80 ∧ blockRead finished.block (4 * 15 + 3) = some 0x00 ∧
      written State.reset.block (4 * 15 + 3) = false ∧ finished.done = true := by decide +kernel

theorem test_witness_Rd8Completes :
    finished.fault = none ∧ blockRead finished.block 63 = some 0x00 ∧ written State.reset.block 63 = false ∧
      finished.done = true := by decide +kernel

theorem test_witness_Wr32StoresFourBytes : loaded.fault = none ∧ loaded.busy = false ∧ 15 < 16 := by decide +kernel

theorem test_witness_Wr8StoresOneByte : finished.fault = none ∧ finished.busy = false ∧ 63 < 64 := by decide +kernel

theorem test_witness_ReadsHaveNoSideEffect :
    (∃ t, exec (.rd8 0x40) loaded = .next t) ∧ (∃ t, exec (.rd32 0x04) loaded = .next t) ∧
      ∃ t, exec (.rd8 0x40) State.reset = .next t := ⟨⟨_, rfl⟩, ⟨_, rfl⟩, _, rfl⟩

theorem test_witness_StoredWordIsReadAndUsed :
    State.reset.fault = none ∧ State.reset.busy = false ∧
      ∃ t, exec (.wr32 (BitVec.ofNat 8 (0x40 + 4 * 15)) 0xDEADBEEF) State.reset = .next t := ⟨rfl, rfl, _, rfl⟩

theorem test_witness_StoredByteIsItsLane :
    loaded.fault = none ∧ loaded.busy = false ∧
      ∃ t, exec (.wr8 (BitVec.ofNat 8 (0x40 + 4 * 15 + 3)) 0xAA) loaded = .next t := ⟨rfl, rfl, _, rfl⟩

theorem test_witness_NoDigestBeforeDone :
    loaded.fault = none ∧ loaded.done = false ∧ 0x80 ≤ (0x8C : BitVec 8).toNat ∧ (0x8C : BitVec 8).toNat < 0x90 ∧
      0xA0 ≤ (0xBC : BitVec 8).toNat ∧ (0xBC : BitVec 8).toNat < 0xC0 ∧ (0xBC : BitVec 8).toNat % 4 = 0 ∧ (0xBF : BitVec 8).toNat % 4 ≠ 0 := by
  decide +kernel

theorem test_witness_HostAccessHasOneOutcome :
    loaded.fault = none ∧ (∃ t, hostTurn ⟨0b110, 0x40, 0⟩ loaded = .next t) ∧
      ∃ t, hostTurn ⟨0b000, 0x40, 0⟩ State.reset = .next t := ⟨rfl, ⟨_, rfl⟩, _, rfl⟩

theorem test_witness_EveryInstructionFrame :
    (∃ t, exec (.rd8 0x40) loaded = .next t) ∧ (∃ t, exec .roundF (busyAt 0 iv) = .next t) ∧
      (∃ t, exec (.wr32 0x40 1) loaded = .next t) ∧ (∃ t, exec .init finished = .next t) ∧
      ∃ t, exec (.compress false) loaded = .next t := ⟨⟨_, rfl⟩, ⟨_, rfl⟩, ⟨_, rfl⟩, ⟨_, rfl⟩, _, rfl⟩

theorem test_witness_PaddingFillsWholeBlocks :
    (List.replicate 55 (0x61 : Byte)).length % 64 ≤ 55 ∧ 56 ≤ (List.replicate 56 (0x61 : Byte)).length % 64 ∧
      (paddedBlocks (List.replicate 56 0x61)).length = 2 := by decide +kernel

theorem test_witness_PaddingBytes :
    (pad [0x61, 0x62, 0x63])[3]? = some 0x80 ∧ (pad [0x61, 0x62, 0x63])[55]? = some 0x00 ∧
      (pad [0x61, 0x62, 0x63])[56]? = some 0x18 ∧ (pad [0x61, 0x62, 0x63])[63]? = some 0x00 := by decide +kernel

theorem test_witness_EnginesAreIndependent :
    let p : Platform := [⟨0, State.reset⟩, ⟨5, loaded⟩]
    (0 : Nat) ≠ 1 ∧ platformWellFormed p = true ∧ p[0]? = some ⟨0, State.reset⟩ ∧ p[1]? = some ⟨5, loaded⟩ ∧
      ¬ (Slot.base ⟨5, loaded⟩ ≤ 0xFF ∧ 0xFF < Slot.base ⟨5, loaded⟩ + 256) := by
  decide +kernel

/-- Before the first round, and at j = 64 with the working registers of 64 rounds. -/
theorem test_witness_BusyWorkingRegistersAreRounds :
    let s := busyAt 64 (rounds (messageWord emptyBlock) 64 iv)
    DatapathInv (busyAt 0 iv) ∧ (∃ t, step (busyAt 0 iv) = .next t) ∧
      DatapathInv s ∧ (∃ t, step s = .next t ∧ t.busy = false) ∧ s.busy = true ∧ s.turns.head? ≠ some .reset :=
  ⟨by decide +kernel, ⟨_, rfl⟩, by decide +kernel, ⟨_, rfl, rfl⟩, rfl, by decide⟩

/-- Two in turn for ever. -/
def alternating {α : Type} (x y : α) (n : Nat) : α := if n % 2 = 0 then x else y

theorem alternating_fair_left {α : Type} (x y : α) : Fair x (alternating x y) :=
  fun n => ⟨2 * n, by omega, by simp [alternating]⟩

theorem alternating_fair_right {α : Type} (x y : α) : Fair y (alternating x y) :=
  fun n => ⟨2 * n + 1, by omega, by simp [alternating, Nat.add_mod]⟩

/-- A host that reads STATUS for ever, the engine moving every other time. -/
theorem test_witness_BusyPeriodEndsUnderFairness :
    EngineInv (busyAt 0 iv) ∧ (busyAt 0 iv).fault = none ∧ (busyAt 0 iv).busy = true ∧
      Fair .engine (alternating statusTurn .engine) ∧ ∀ n, alternating statusTurn .engine n ≠ .reset := by
  refine ⟨by decide +kernel, rfl, rfl, alternating_fair_right _ _, fun n => ?_⟩
  unfold alternating
  split <;> decide

/-- A host at POLL beside an idle engine, a busy one and one with a fault recorded. -/
def polling (s : State) : HostRun := ⟨[.poll], [], s⟩

theorem test_witness_PollReadsUntilIdle :
    (polling loaded).program = [.poll] ∧ loaded.fault = none ∧ loaded.busy = false ∧ (busyAt 0 iv).fault = none ∧
      (busyAt 0 iv).busy = true ∧ faulted.fault ≠ none := by decide +kernel

theorem test_witness_EveryPollEnds :
    (polling (busyAt 0 iv)).program = .poll :: [] ∧ (busyAt 0 iv).fault = none ∧ (busyAt 0 iv).busy = true ∧
      Fair .engine (alternating Agent.host .engine) ∧ alternating Agent.host .engine 1000 = .host :=
  ⟨rfl, rfl, rfl, alternating_fair_right _ _, rfl⟩

/-- 30_encoding.md R78: POLL is read again while BUSY = 1, and ends with STATUS = 0x00000002 after the last block. -/
theorem test_poll :
    (move (polling (busyAt 0 iv)) .host).program = [.poll] ∧ (move (polling finished) .host).program = [] ∧
      (move (polling finished) .host).polls = [0x00000002] := by decide +kernel

/-- 45_host_padding.md R195: begun by INIT after another computation, and on the state a reset left. -/
theorem test_witness_HostSequenceGivesHash :
    cleanRun finished = true ∧ finished.busy = false ∧ cleanRun State.reset = true ∧ State.reset.busy = false ∧
      State.reset.chain = iv ∧ State.reset.done = false := by decide +kernel

/-- Every move once, for the empty message. -/
theorem test_witness_HostSequenceGivesHash_moves :
    (runMoves ⟨hostSequence .init .hex [], [], State.reset⟩
      (List.replicate 19 .host ++ List.replicate 65 .engine ++ List.replicate 9 .host)).program = [] := by decide +kernel

theorem test_witness_HostSequenceGivesHash_order :
    Fair .host (alternating Agent.host .engine) ∧ Fair .engine (alternating Agent.host .engine) :=
  ⟨alternating_fair_left _ _, alternating_fair_right _ _⟩

/-- 45_host_padding.md R195, example of 43_digest.md R155: the hex words of the empty message begin "d41d". -/
theorem test_digestWords : (digestWords .hex []).head? = some 0x64313464 := by decide +kernel

/-- 45_host_padding.md R195: one block, begun by INIT: INIT, POLL, 16 writes, COMPRESS.LAST, POLL and the reads. -/
theorem test_hostSequence :
    (hostSequence .init .hex []).length = 28 ∧ (hostSequence .afterReset .bytes []).length = 23 ∧
      (hostSequence .init .hex [])[18]? = some (.access (wr32Access 0x00 0x00000006)) := by decide +kernel

end Sys2Proof.Tests
end

section
/-! Proofs of the statements of 00_scope.md: what one step runs. -/

namespace Sys2Proof.Machine

/-! ### The turn of a step -/

/-- A step with a turn to come is that turn, on the state without it. -/
theorem step_of_turns_cons {s : State} {u : Turn} {ts : List Turn} (h : s.turns = u :: ts) :
    step s = runTurn u { s with turns := ts } := by
  rw [step_eq, popTurn_cons h, h]
  rfl

/-- A step with no turn to come is the engine's. -/
theorem step_of_turns_nil {s : State} (h : s.turns = []) : step s = engineTurn s := by
  rw [step_eq, popTurn_nil h, h]
  rfl

/-! ### A host access -/

/-- A host access that decodes is its instruction. -/
theorem hostTurn_of_decode_ok {a : Access} {i : Instr} (h : decode (.bus a.op a.off a.data) = .ok i) (s : State) :
    hostTurn a s = exec i s := by
  simp only [hostTurn, h]

/-- The descriptors the decoder rejects are those of 2-byte and 8-byte transfers (30_encoding.md R74). -/
theorem opSize_of_decode_error {op : BitVec 3} {off : BitVec 8} {data : Word} {r : Reject}
    (h : decode (.bus op off data) = .error r) : ¬ (opSize op = 1 ∨ opSize op = 4) := by
  have sizes : ∀ op : BitVec 3, opSize op = 1 ∨ opSize op = 4 →
      op = 0b000 ∨ op = 0b001 ∨ op = 0b100 ∨ op = 0b101 := by decide
  intro hsize
  rcases sizes op hsize with rfl | rfl | rfl | rfl <;> cases h

/-- A transfer of another size fails the first check (20_memory.md R58), whatever else is wrong with it. -/
theorem checkAccess_badSize (dir : Dir) {size : Nat} (off : BitVec 8) (done : Bool) (h : ¬ (size = 1 ∨ size = 4)) :
    checkAccess dir size off done = some .badSize := if_pos h

/-- A host access the decoder rejects ends in the bus error of its size. -/
theorem hostTurn_of_decode_error {a : Access} {r : Reject} (h : decode (.bus a.op a.off a.data) = .error r)
    {s : State} (hf : s.fault = none) : hostTurn a s = .next (busError .badSize s) := by
  simp only [hostTurn, h, badSizeAccess, live_running _ hf, ifAdmitted,
    checkAccess_badSize _ _ _ (opSize_of_decode_error h)]

/-! ### An engine turn -/

/-- The selector j[5:4] of a round is the number of its group of 16 (30_encoding.md R75). -/
theorem selOf_roundIndex (s : State) (h : s.j.toNat < 64) :
    selOf (roundIndex s) = BitVec.ofNat 2 (s.j.toNat / 16) := by
  apply BitVec.eq_of_toNat_eq
  simp only [selOf, roundIndex, BitVec.extractLsb'_toNat, BitVec.toNat_ofNat,
    Nat.shiftRight_eq_div_pow]
  omega

/-- The engine's turn in a round is the instruction the round's selector decodes to. -/
theorem engineTurn_of_round {s : State} {i : Instr} (hf : s.fault = none) (hb : s.busy = true)
    (hj : s.j.toNat < 64) (h : decode (.rsel (BitVec.ofNat 2 (s.j.toNat / 16))) = .ok i) :
    engineTurn s = exec i s := by
  have hi : decodeRsel (selOf (roundIndex s)) = i := by
    rw [selOf_roundIndex s hj]
    exact Except.ok.inj h
  simp only [engineTurn, hf, hb, hj, if_true, hi]

/-- Settles O6: the first turn is what a step runs, and each kind of turn is the operation its lemma above names. -/
theorem stepRunsDecodedInstruction : Obligations.StepRunsDecodedInstruction := by
  intro s ts
  refine ⟨?host, ?badSize, ?round, ?reset, step_of_turns_nil⟩
  case host =>
    intro a i ht hd
    exact (step_of_turns_cons ht).trans (hostTurn_of_decode_ok hd _)
  case badSize =>
    intro a r ht hd hf
    exact (step_of_turns_cons ht).trans (hostTurn_of_decode_error hd hf)
  case round =>
    intro i ht hf hb hj hd
    exact (step_of_turns_cons ht).trans (engineTurn_of_round hf hb hj hd)
  case reset =>
    intro ht
    exact step_of_turns_cons ht

end Sys2Proof.Machine
end

section
/-! Proofs of the statements of 10_state.md: the invariant of the engine, the fault record, what stays fixed while
BUSY = 1, and the frame of every instruction. -/

namespace Sys2Proof.Machine

/-! ### The invariant -/

/-- Settles O9: BUSY and DONE are 0, j is 0 and no block byte is listed (70_reset_and_hazards.md R230). -/
theorem powerOnStateMeetsInvariant : Obligations.PowerOnStateMeetsInvariant :=
  ⟨fun _ => rfl, nofun, Nat.zero_le 64, wf_nil, nofun⟩

/-- Whatever a host access does keeps the invariant: only INIT, an accepted COMPRESS and a block store touch what it
speaks of, all three with BUSY = 0. -/
theorem effect_keeps_engineInv {s t : State} (h : Effect s t) (hs : EngineInv s) : EngineInv t := by
  have ⟨hidle, hdone, hj, hwf, hfull⟩ := hs
  cases h with
  | quiescent | responded | droppedBusy | droppedCmd | droppedSeq | faulted => exact hs
  | initialised _ hb => exact ⟨hidle, nofun, hj, hwf, hfull⟩
  | started last _ hb hd hc => exact ⟨nofun, fun h => absurd (hd.symm.trans h) nofun, Nat.zero_le 64, hwf, fun _ => hc⟩
  | stored i bytes _ hb hi =>
    exact ⟨hidle, hdone, hj, wf_writeBytes bytes s.block i hi hwf,
      fun h => blockComplete_writeBytes bytes s.block i (hfull h)⟩

/-- A round with j < 64 keeps the invariant: j grows by one, BUSY stays 1. -/
theorem roundStep_keeps_engineInv {s : State} (hb : s.busy = true) (hj : s.j.toNat < 64) (hs : EngineInv s) :
    EngineInv (roundStep s) := by
  obtain ⟨_, hdone, _, hwf, hfull⟩ := hs
  have hj' : (s.j + 1).toNat ≤ 64 := by bv_omega
  exact ⟨fun h => absurd (hb.symm.trans h) nofun, hdone, hj', hwf, hfull⟩

/-- The accumulate step keeps the invariant: it clears j and BUSY. -/
theorem accumulateStep_keeps_engineInv {s : State} (hs : EngineInv s) : EngineInv (accumulateStep s) := by
  obtain ⟨_, _, _, hwf, _⟩ := hs
  exact ⟨fun _ => rfl, fun _ => rfl, Nat.zero_le 64, hwf, nofun⟩

/-- Settles O10: each kind of step keeps the invariant. It says nothing of the turns, so taking one off keeps it; a reset
gives the power-on values. -/
theorem stepKeepsInvariant : Obligations.StepKeepsInvariant := by
  intro s t hs h
  have hpop : EngineInv (popTurn s) := hs
  cases step_effect h with
  | idle => exact hpop
  | effect he => exact effect_keeps_engineInv he hpop
  | rounded _ hb hj => exact roundStep_keeps_engineInv hb hj hpop
  | accumulated => exact accumulateStep_keeps_engineInv hpop
  | reset => exact powerOnStateMeetsInvariant

/-! ### The fault record -/

/-- A host access in a state with a fault recorded leaves it as it is (60_exceptions.md R206). -/
theorem effect_of_fault {s t : State} {f : Fault} (hf : s.fault = some f) (h : Effect s t) : t = s := by
  have hne : s.fault ≠ none := hf ▸ nofun
  cases h with
  | quiescent => rfl
  | responded _ h | droppedBusy h | droppedCmd h | droppedSeq h | initialised h | started _ h | stored _ _ h
    | faulted _ h => exact absurd h hne

/-- With a fault recorded a step takes off its turn, and does nothing else unless that turn is a reset. -/
theorem step_of_fault {s t : State} {f : Fault} (hf : s.fault = some f) (h : step s = .next t) :
    t = popTurn s ∨ (s.turns.head? = some .reset ∧ t = resetInput (popTurn s)) := by
  have hne : s.fault ≠ none := hf ▸ nofun
  cases step_effect h with
  | idle => exact .inl rfl
  | effect he => exact .inl (effect_of_fault (s := popTurn s) hf he)
  | rounded h' | accumulated h' => exact absurd h' hne
  | reset hr => exact .inr ⟨hr, rfl⟩

/-- Settles O12: of the two steps a state with a fault recorded can take, both keep the record and only the reset does
more than take off its turn. -/
theorem faultRecordIsPermanent : Obligations.FaultRecordIsPermanent := by
  intro s t f hf h
  have hfinal : finalState s = false := by simp [finalState, hf]
  obtain rfl | ⟨hr, rfl⟩ := step_of_fault hf h
  · exact ⟨hf, hfinal, fun _ => rfl⟩
  · exact ⟨hf, hfinal, fun hn => absurd hr hn⟩

/-! ### The busy period -/

/-- A host access while BUSY = 1 changes neither the block buffer nor A..D: INIT, COMPRESS and the block writes are
dropped (60_exceptions.md R203). -/
theorem effect_busy_block_chain {s t : State} (hb : s.busy = true) (h : Effect s t) :
    t.block = s.block ∧ t.chain = s.chain := by
  have hne : s.busy ≠ false := hb ▸ nofun
  cases h with
  | quiescent | responded | droppedBusy | droppedCmd | droppedSeq | faulted => exact ⟨rfl, rfl⟩
  | initialised _ h | started _ _ h | stored _ _ _ h => exact absurd h hne

/-- Settles O15: no step writes the block, and of those that are no reset only the accumulate step writes A..D. -/
theorem blockAndChainAreFixedWhileBusy : Obligations.BlockAndChainAreFixedWhileBusy := by
  intro s t hb h hn
  cases step_effect h with
  | idle => exact ⟨rfl, .inl rfl⟩
  | effect he =>
    obtain ⟨hblock, hchain⟩ := effect_busy_block_chain (s := popTurn s) hb he
    exact ⟨hblock, .inl hchain⟩
  | rounded => exact ⟨rfl, .inl rfl⟩
  | accumulated _ _ hj => exact ⟨rfl, .inr ⟨rfl, rfl, hj⟩⟩
  | reset hr => exact absurd hr hn

/-! ### The frame that all instructions share -/

/-- What every instruction keeps: the coming turns, all responses but for one new one, an error bit that is set, and a
DONE that is 0. -/
structure CommonFrame (s t : State) : Prop where
  turns : t.turns = s.turns
  responses : t.responses = s.responses ∨ ∃ r, t.responses = r :: s.responses
  errCmd : s.errCmd = true → t.errCmd = true
  errBusy : s.errBusy = true → t.errBusy = true
  errSeq : s.errSeq = true → t.errSeq = true
  done : t.done = true → s.done = true

theorem effect_commonFrame {s t : State} (h : Effect s t) : CommonFrame s t := by
  cases h with
  | quiescent | faulted => exact ⟨rfl, .inl rfl, id, id, id, id⟩
  | responded | started | stored => exact ⟨rfl, .inr ⟨_, rfl⟩, id, id, id, id⟩
  | droppedBusy => exact ⟨rfl, .inr ⟨_, rfl⟩, id, fun _ => rfl, id, id⟩
  | droppedCmd => exact ⟨rfl, .inr ⟨_, rfl⟩, fun _ => rfl, id, id, id⟩
  | droppedSeq => exact ⟨rfl, .inr ⟨_, rfl⟩, id, id, fun _ => rfl, id⟩
  | initialised => exact ⟨rfl, .inr ⟨_, rfl⟩, id, id, id, nofun⟩

theorem roundOperation_commonFrame {sel : BitVec 2} {s t : State} (h : roundOperation sel s = .next t) :
    CommonFrame s t := by
  obtain ⟨_, rfl⟩ | ⟨_, _, rfl⟩ := roundOperation_next h <;> exact ⟨rfl, .inl rfl, id, id, id, id⟩

theorem exec_commonFrame {i : Instr} {s t : State} (h : exec i s = .next t) : CommonFrame s t := by
  cases i with
  | roundF | roundG | roundH | roundI => exact roundOperation_commonFrame h
  | nop | init | compress | rd8 | wr8 | rd32 | wr32 => exact effect_commonFrame (exec_effect ⟨_, rfl⟩ h)

/-! ### Which instruction can change what -/

/-- `t` is `s` but for the error bits, the fault record and the responses: how an access ends that does nothing else. -/
def OnlyReports (s t : State) : Prop :=
  t = { s with errCmd := t.errCmd, errBusy := t.errBusy, errSeq := t.errSeq, fault := t.fault, responses := t.responses }

/-- INIT and the write that can carry it. -/
def CanInit (i : Instr) : Prop := i = .init ∨ ∃ v, i = .wr32 0x00 v

/-- COMPRESS and the write that can carry it. -/
def CanStart (i : Instr) : Prop := (∃ last, i = .compress last) ∨ ∃ v, i = .wr32 0x00 v

/-- The writes that can reach BLOCK. -/
def CanStore (i : Instr) : Prop := (∃ off v, i = .wr8 off v) ∨ ∃ off v, i = .wr32 off v

/-- The four round operations. -/
def IsRound (i : Instr) : Prop := i = .roundF ∨ i = .roundG ∨ i = .roundH ∨ i = .roundI

/-- Everything the instruction `i` can change beyond what `OnlyReports` allows. `Effect` says what an access can do; this
says which instruction can do it. -/
inductive Change (i : Instr) (s : State) : State → Prop where
  | reported {t : State} (h : OnlyReports s t) : Change i s t
  | initialised (hi : CanInit i) : Change i s (doInit s)
  | started (last : Bool) (hi : CanStart i) :
      Change i s (respond .ok { s with work := s.chain, j := 0, last := last, busy := true })
  | stored (m : Memory) (hi : CanStore i) : Change i s (respond .ok { s with block := m })
  | rounded (hi : IsRound i) : Change i s (roundStep s)

section
variable {i : Instr} {s t : State}

theorem live_change {f : State → State} (h : live f s = .next t) (hf : Change i s (f s)) : Change i s t := by
  obtain ⟨_, rfl⟩ | ⟨_, rfl⟩ := live_next h
  · exact hf
  · exact .reported rfl

theorem ifAdmitted_change {dir : Dir} {size : Nat} {off : BitVec 8} {effect : State → State}
    (he : checkAccess dir size off s.done = none → Change i s (effect s)) :
    Change i s (ifAdmitted dir size off effect s) := by
  obtain ⟨_, _, e⟩ | ⟨hn, e⟩ := ifAdmitted_cases dir size off effect s <;> rw [e]
  · exact .reported rfl
  · exact he hn

/-- A command changes what its own instruction, or the write of its word, can change. -/
theorem command_change {c : CtrlCmd} (hi : instrOfCtrl c = some i ∨ ∃ v, i = .wr32 0x00 v) :
    Change i s (ctrlWhenIdle (command c) s) := by
  cases hb : s.busy with
  | true => rw [ctrlWhenIdle_busy _ hb]; exact .reported rfl
  | false =>
    rw [ctrlWhenIdle_idle _ hb]
    cases c with
    | illegal | nop => exact .reported rfl
    | init => exact .initialised (hi.imp_left fun h => (Option.some.inj h).symm)
    | compress last =>
      simp only [command, doCompress]
      split
      · exact .reported rfl
      · cases hc : blockComplete s.block with
        | true =>
          rw [startBlock_complete last hc]
          exact .started last (hi.imp_left fun h => ⟨last, (Option.some.inj h).symm⟩)
        | false => rw [startBlock_unwritten last hc]; exact .reported rfl

theorem blockStore_change (k : Nat) (bytes : List Byte) (hi : CanStore i) : Change i s (blockStore k bytes s) := by
  cases hb : s.busy with
  | true => rw [blockStore_busy _ _ hb]; exact .reported rfl
  | false => rw [blockStore_idle _ _ hb]; exact .stored _ hi

theorem blockLoad_onlyReports (v : Option Response) (s : State) : OnlyReports s (blockLoad v s) := by
  cases v <;> rfl

theorem load8_onlyReports (off : BitVec 8) (s : State) : OnlyReports s (load8 off s) := by
  unfold load8
  split
  case h_3 => exact blockLoad_onlyReports _ s
  all_goals rfl

theorem load32_onlyReports (off : BitVec 8) (s : State) : OnlyReports s (load32 off s) := by
  unfold load32
  split
  case h_3 => exact blockLoad_onlyReports _ s
  all_goals rfl

theorem store8_change (off : BitVec 8) (v : Byte) : Change (.wr8 off v) s (store8 off v s) := by
  unfold store8
  split
  case h_3 => exact blockStore_change _ _ (.inl ⟨off, v, rfl⟩)
  all_goals exact .reported rfl

/-- The one aligned offset of CTRL is 0x00 (20_memory.md R52). -/
theorem ctrl_aligned {off : BitVec 8} (hr : region off = .ctrl) (ha : off.extractLsb' 0 2 = 0) : off = 0x00 := by
  have hlt := region_ctrl.1 hr
  have hmod := aligned_mod ha
  exact BitVec.eq_of_toNat_eq (show off.toNat = 0 by omega)

theorem store32_change {off : BitVec 8} (v : Word) (ha : off.extractLsb' 0 2 = 0) :
    Change (.wr32 off v) s (store32 off v s) := by
  unfold store32
  split
  case h_1 hr => exact command_change (.inr ⟨v, by rw [ctrl_aligned hr ha]⟩)
  case h_3 => exact blockStore_change _ _ (.inr ⟨off, v, rfl⟩)
  all_goals exact .reported rfl

theorem roundOperation_change {sel : BitVec 2} (hi : IsRound i) (h : roundOperation sel s = .next t) :
    Change i s t := by
  obtain ⟨_, rfl⟩ | ⟨_, _, rfl⟩ := roundOperation_next h
  · exact .reported rfl
  · exact .rounded hi

/-- Whatever an instruction does is a change that it can make. -/
theorem exec_change (h : exec i s = .next t) : Change i s t := by
  cases i with
  | nop => exact live_change h (command_change (c := .nop) (.inl rfl))
  | init => exact live_change h (command_change (c := .init) (.inl rfl))
  | compress last => exact live_change h (command_change (c := .compress last) (.inl rfl))
  | rd8 off => exact live_change h (ifAdmitted_change fun _ => .reported (load8_onlyReports off s))
  | wr8 off v => exact live_change h (ifAdmitted_change fun _ => store8_change off v)
  | rd32 off => exact live_change h (ifAdmitted_change fun _ => .reported (load32_onlyReports off s))
  | wr32 off v =>
    refine live_change h (ifAdmitted_change fun hadm => ?_)
    obtain ⟨_, haligned, _⟩ := checkAccess_none hadm
    exact store32_change v (haligned rfl)
  | roundF => exact roundOperation_change (.inl rfl) h
  | roundG => exact roundOperation_change (.inr (.inl rfl)) h
  | roundH => exact roundOperation_change (.inr (.inr (.inl rfl))) h
  | roundI => exact roundOperation_change (.inr (.inr (.inr rfl))) h

theorem Change.block_eq (h : Change i s t) (hn : ¬ CanStore i) : t.block = s.block := by
  cases h with
  | reported h => exact (congrArg State.block h :)
  | initialised | started | rounded => rfl
  | stored _ hi => exact absurd hi hn

theorem Change.chain_done_eq (h : Change i s t) (hn : ¬ CanInit i) : t.chain = s.chain ∧ t.done = s.done := by
  cases h with
  | reported h => exact ⟨(congrArg State.chain h :), (congrArg State.done h :)⟩
  | started | stored | rounded => exact ⟨rfl, rfl⟩
  | initialised hi => exact absurd hi hn

theorem Change.busy_last_eq (h : Change i s t) (hn : ¬ CanStart i) : t.busy = s.busy ∧ t.last = s.last := by
  cases h with
  | reported h => exact ⟨(congrArg State.busy h :), (congrArg State.last h :)⟩
  | initialised | stored | rounded => exact ⟨rfl, rfl⟩
  | started _ hi => exact absurd hi hn

theorem Change.work_j_eq (h : Change i s t) (hn : ¬ CanStart i) (hr : ¬ IsRound i) : t.work = s.work ∧ t.j = s.j := by
  cases h with
  | reported h => exact ⟨(congrArg State.work h :), (congrArg State.j h :)⟩
  | initialised | stored => exact ⟨rfl, rfl⟩
  | started _ hi => exact absurd hi hn
  | rounded hi => exact absurd hi hr

end

/-- Settles O51: the shared frame, and for the rest that only the instructions named can make the change. -/
theorem everyInstructionFrame : Obligations.EveryInstructionFrame := by
  intro i s t h
  obtain ⟨hturns, hresp, hcmd, hbusy, hseq, hdone⟩ := exec_commonFrame h
  have hc := exec_change h
  refine ⟨hturns, hresp, hcmd, hbusy, hseq, ?block, ?chain, hdone, ?busy, ?work⟩
  case block =>
    intro h8 h32
    exact hc.block_eq (by simp [CanStore, h8, h32])
  case chain =>
    intro hi h32
    exact hc.chain_done_eq (not_or.2 ⟨hi, not_exists.2 h32⟩)
  case busy =>
    intro hi h32
    exact hc.busy_last_eq (not_or.2 ⟨not_exists.2 hi, not_exists.2 h32⟩)
  case work =>
    intro hi h32 hF hG hH hI
    exact hc.work_j_eq (not_or.2 ⟨not_exists.2 hi, not_exists.2 h32⟩) (by simp [IsRound, hF, hG, hH, hI])

end Sys2Proof.Machine
end

section
/-! Proofs of the statements of 20_memory.md: the order of an access's checks, reads without side effect, what a store
in BLOCK makes of its message word, and the independence of the engines of a platform. -/

namespace Sys2Proof.Machine

/-! ### CheckAccess over the offsets -/

theorem aligned_iff {off : BitVec 8} : off.extractLsb' 0 2 = 0 ↔ off.toNat % 4 = 0 :=
  ⟨aligned_mod, fun h => BitVec.eq_of_toNat_eq (by simpa [BitVec.extractLsb'_toNat] using h)⟩

theorem region_unmapped {off : BitVec 8} :
    region off = .unmapped ↔ (0x08 ≤ off.toNat ∧ off.toNat < 0x40) ∨ (0x90 ≤ off.toNat ∧ off.toNat < 0xA0) ∨
      0xC0 ≤ off.toNat := by
  unfold region
  repeat' split
  all_goals (simp; omega)

theorem region_status {off : BitVec 8} : region off = .status ↔ 0x04 ≤ off.toNat ∧ off.toNat < 0x08 := by
  unfold region
  repeat' split
  all_goals (simp; omega)

theorem region_isControl {off : BitVec 8} : (region off).isControl = true ↔ off.toNat < 0x08 := by
  unfold region
  repeat' split
  all_goals (simp [Region.isControl]; omega)

/-- Above BLOCK every mapped offset is one of a digest region. -/
theorem region_isDigest {off : BitVec 8} (hm : region off ≠ .unmapped) :
    (region off).isDigest = true ↔ 0x80 ≤ off.toNat := by
  rw [Ne, region_unmapped] at hm
  unfold region
  repeat' split
  all_goals (simp [Region.isDigest]; omega)

/-- CheckAccess with each condition of the window as a range of offsets (20_memory.md R52, R58). -/
theorem checkAccess_eq (dir : Dir) (size : Nat) (off : BitVec 8) (done : Bool) :
    checkAccess dir size off done =
      if size ≠ 1 ∧ size ≠ 4 then some .badSize
      else if size = 4 ∧ off.toNat % 4 ≠ 0 then some .misaligned
      else if (0x08 ≤ off.toNat ∧ off.toNat < 0x40) ∨ (0x90 ≤ off.toNat ∧ off.toNat < 0xA0) ∨ 0xC0 ≤ off.toNat then
        some .unmapped
      else if off.toNat < 0x08 ∧ size = 1 then some .badSize
      else if dir = .write ∧ ((0x04 ≤ off.toNat ∧ off.toNat < 0x08) ∨ 0x80 ≤ off.toNat) then some .roWrite
      else if dir = .read ∧ 0x80 ≤ off.toNat ∧ done = false then some .notReady
      else none := by
  refine if_congr not_or rfl (if_congr (and_congr_right' (not_congr aligned_iff)) rfl ?_)
  refine ite_congr (propext region_unmapped) (fun _ => rfl) fun hu => ?mapped
  have hm : region off ≠ .unmapped := mt region_unmapped.1 hu
  refine if_congr (and_congr_left' region_isControl) rfl (if_congr (and_congr_right' ?_) rfl (if_congr ?_ rfl rfl))
  · exact or_congr region_status (region_isDigest hm)
  · exact and_congr_right' (and_congr_left' (region_isDigest hm))

/-! ### Every host access is admission and then its effect -/

theorem ifAdmitted_refused {dir : Dir} {size : Nat} {off : BitVec 8} {s : State} {c : BusCause}
    (effect : State → State) (h : checkAccess dir size off s.done = some c) :
    ifAdmitted dir size off effect s = busError c s := by simp only [ifAdmitted, h]

theorem ifAdmitted_admitted {dir : Dir} {size : Nat} {off : BitVec 8} {s : State}
    (effect : State → State) (h : checkAccess dir size off s.done = none) :
    ifAdmitted dir size off effect s = effect s := by simp only [ifAdmitted, h]

/-- A CTRL word, legal or not, has the effect of the plain 4-byte write that carries it (44_commands.md R161). -/
theorem exec_decodeWr32 (off : BitVec 8) (v : Word) (s : State) :
    exec (decodeWr32 off v) s = exec (.wr32 off v) s := by
  by_cases ho : off = 0x00
  · subst ho
    have hadm : ∀ t : State, ifAdmitted .write 4 0x00 (store32 0x00 v) t = ctrlWhenIdle (command (decodeCtrl v)) t :=
      fun t => ifAdmitted_admitted _ rfl
    have hwr : exec (.wr32 0x00 v) s = live (ctrlWhenIdle (command (decodeCtrl v))) s :=
      congrArg (live · s) (funext hadm)
    rw [hwr, decodeWr32, if_pos rfl]
    cases hc : decodeCtrl v with
    | illegal => rw [hc] at hwr; exact hwr
    | nop | init | compress => rfl
  · rw [decodeWr32, if_neg ho]

/-- What the decoder makes of each descriptor it takes (30_encoding.md R74). -/
theorem decodeBus_ok_cases {op : BitVec 3} {off : BitVec 8} {data : Word} {i : Instr}
    (h : decodeBus op off data = .ok i) :
    (op = 0b000 ∧ i = .rd8 off) ∨ (op = 0b001 ∧ i = .wr8 off (data.extractLsb' 0 8)) ∨
      (op = 0b100 ∧ i = .rd32 off) ∨ (op = 0b101 ∧ i = decodeWr32 off data) := by
  unfold decodeBus at h
  split at h
  case h_1 ho => cases h; exact .inl ⟨BitVec.eq_of_toNat_eq ho, rfl⟩
  case h_2 ho => cases h; exact .inr (.inl ⟨BitVec.eq_of_toNat_eq ho, rfl⟩)
  case h_3 ho => cases h; exact .inr (.inr (.inl ⟨BitVec.eq_of_toNat_eq ho, rfl⟩))
  case h_4 ho => cases h; exact .inr (.inr (.inr ⟨BitVec.eq_of_toNat_eq ho, rfl⟩))
  case h_5 => cases h

/-- Every host access, also one that is no instruction, is CheckAccess on its descriptor and then some effect
(44_commands.md R160). -/
theorem hostTurn_eq_ifAdmitted (op : BitVec 3) (off : BitVec 8) (data : Word) :
    ∃ effect, ∀ s, hostTurn ⟨op, off, data⟩ s = live (ifAdmitted (opDir op) (opSize op) off effect) s := by
  cases hd : decode (.bus op off data) with
  | error r => exact ⟨busError .badSize, fun s => by simp only [hostTurn, hd]; rfl⟩
  | ok i =>
    have hexec (s : State) : hostTurn ⟨op, off, data⟩ s = exec i s := hostTurn_of_decode_ok hd s
    obtain ⟨rfl, rfl⟩ | ⟨rfl, rfl⟩ | ⟨rfl, rfl⟩ | ⟨rfl, rfl⟩ := decodeBus_ok_cases hd
    · exact ⟨load8 off, hexec⟩
    · exact ⟨store8 off (data.extractLsb' 0 8), hexec⟩
    · exact ⟨load32 off, hexec⟩
    · exact ⟨store32 off data, fun s => (hexec s).trans (exec_decodeWr32 off data s)⟩

/-- An access that fails a check ends in that check's bus error (60_exceptions.md R202). -/
theorem hostTurn_refused {a : Access} {s : State} {c : BusCause} (hf : s.fault = none)
    (hc : checkAccess (opDir a.op) (opSize a.op) a.off s.done = some c) : hostTurn a s = .next (busError c s) := by
  obtain ⟨effect, he⟩ := hostTurn_eq_ifAdmitted a.op a.off a.data
  rw [he s, live_running _ hf, ifAdmitted_refused effect hc]

/-- Settles O40: every access is admission and then its effect, so a failing check decides it. -/
theorem admissionFollowsCheckOrder : Obligations.AdmissionFollowsCheckOrder :=
  ⟨fun _ _ _ hf hc => hostTurn_refused hf hc, checkAccess_eq⟩

/-! ### Reads -/

/-- What a read can do while no fault is recorded: give the host a response, or record an unwritten byte. -/
inductive ReadEffect (s : State) : State → Prop where
  | responded (r : Response) : ReadEffect s (respond r s)
  | unwritten : ReadEffect s (recordFault .unwrittenBlockRead s)

theorem blockLoad_readEffect (v : Option Response) (s : State) : ReadEffect s (blockLoad v s) := by
  cases v with
  | some r => exact .responded r
  | none => exact .unwritten

theorem load8_readEffect (off : BitVec 8) (s : State) : ReadEffect s (load8 off s) := by
  unfold load8
  split
  case h_3 => exact blockLoad_readEffect _ s
  all_goals exact .responded _

theorem load32_readEffect (off : BitVec 8) (s : State) : ReadEffect s (load32 off s) := by
  unfold load32
  split
  case h_3 => exact blockLoad_readEffect _ s
  all_goals exact .responded _

theorem ifAdmitted_readEffect {dir : Dir} {size : Nat} {off : BitVec 8} {effect : State → State} {s : State}
    (he : ReadEffect s (effect s)) : ReadEffect s (ifAdmitted dir size off effect s) := by
  obtain ⟨c, _, e⟩ | ⟨_, e⟩ := ifAdmitted_cases dir size off effect s <;> rw [e]
  · exact .responded (.busError c)
  · exact he

/-- RD8 and RD32 do a read's effect, or nothing where a fault is recorded. -/
theorem exec_read {off : BitVec 8} {s t : State} (h : exec (.rd8 off) s = .next t ∨ exec (.rd32 off) s = .next t) :
    (s.fault = none ∧ ReadEffect s t) ∨ t = s := by
  obtain h | h := h
  all_goals obtain ⟨hf, rfl⟩ | ⟨_, rfl⟩ := live_next h
  · exact .inl ⟨hf, ifAdmitted_readEffect (load8_readEffect off s)⟩
  · exact .inr rfl
  · exact .inl ⟨hf, ifAdmitted_readEffect (load32_readEffect off s)⟩
  · exact .inr rfl

/-- Settles O46: of what a read can do, a response changes the responses alone and an unwritten byte the fault record
alone. -/
theorem readsHaveNoSideEffect : Obligations.ReadsHaveNoSideEffect := by
  intro s t off h
  obtain ⟨hf, he⟩ | rfl := exec_read h
  · cases he with
    | responded r => exact .inl ⟨rfl, r :: s.responses, rfl⟩
    | unwritten => exact .inr ⟨hf, rfl⟩
  · exact .inl ⟨rfl, t.responses, rfl⟩

/-! ### Accesses to BLOCK -/

section
variable {i k : Nat} {s : State}

theorem toNat_blockOffset (hi : i < 64) : (BitVec.ofNat 8 (0x40 + i)).toNat = 0x40 + i := by
  rw [BitVec.toNat_ofNat]; omega

theorem region_blockOffset (hi : i < 64) : region (BitVec.ofNat 8 (0x40 + i)) = .block := by
  rw [region_block, toNat_blockOffset hi]; omega

theorem blockIndex_blockOffset (hi : i < 64) : blockIndex (BitVec.ofNat 8 (0x40 + i)) = i := by
  rw [blockIndex, toNat_blockOffset hi]; omega

/-- BLOCK admits both directions, one byte at any offset and four bytes at an aligned one. -/
theorem checkAccess_blockOffset (dir : Dir) {size : Nat} (done : Bool) (hi : i < 64)
    (hsize : size = 1 ∨ size = 4 ∧ i % 4 = 0) : checkAccess dir size (BitVec.ofNat 8 (0x40 + i)) done = none := by
  rw [checkAccess_eq, toNat_blockOffset hi, if_neg (by omega), if_neg (by omega), if_neg (by omega), if_neg (by omega),
    if_neg (by omega), if_neg (by omega)]

/-- WR32 to word `k` of BLOCK with BUSY = 0 (44_commands.md R167, R169). -/
theorem exec_wr32_block (v : Word) (hf : s.fault = none) (hb : s.busy = false) (hk : k < 16) :
    exec (.wr32 (BitVec.ofNat 8 (0x40 + 4 * k)) v) s =
      .next (respond .ok { s with block := blockWriteBytes s.block (4 * k) (wordBytes v) }) := by
  have hi : 4 * k < 64 := by omega
  have hadm := checkAccess_blockOffset .write s.done hi (.inr ⟨rfl, Nat.mul_mod_right 4 k⟩)
  simp only [exec, execWr32, live_running _ hf, ifAdmitted_admitted _ hadm, store32, region_blockOffset hi,
    blockIndex_blockOffset hi, blockStore_idle _ _ hb]

/-- WR8 to byte `i` of BLOCK with BUSY = 0 (44_commands.md R168, R169). -/
theorem exec_wr8_block (v : Byte) (hf : s.fault = none) (hb : s.busy = false) (hi : i < 64) :
    exec (.wr8 (BitVec.ofNat 8 (0x40 + i)) v) s =
      .next (respond .ok { s with block := blockWrite s.block i v }) := by
  have hadm := checkAccess_blockOffset .write s.done hi (.inl rfl)
  simp only [exec, execWr8, live_running _ hf, ifAdmitted_admitted _ hadm, store8, region_blockOffset hi,
    blockIndex_blockOffset hi, blockStore_idle _ _ hb, blockWriteBytes]

/-- RD32 of word `k` of BLOCK (44_commands.md R165). -/
theorem exec_rd32_block (hf : s.fault = none) (hk : k < 16) :
    exec (.rd32 (BitVec.ofNat 8 (0x40 + 4 * k))) s =
      .next (blockLoad ((blockReadWord s.block (4 * k)).map .data32) s) := by
  have hi : 4 * k < 64 := by omega
  have hadm := checkAccess_blockOffset .read s.done hi (.inr ⟨rfl, Nat.mul_mod_right 4 k⟩)
  simp only [exec, execRd32, live_running _ hf, ifAdmitted_admitted _ hadm, load32, region_blockOffset hi,
    blockIndex_blockOffset hi]

end

/-! ### A stored word as a message word -/

/-- A word just stored is what a 4-byte read there finds (20_memory.md R53). -/
theorem blockReadWord_writeBytes_same (m : Memory) (a : Nat) (v : Word) :
    blockReadWord (blockWriteBytes m a (wordBytes v)) a = some v := by
  simp [blockReadWord, blockRead_writeBytes, wordBytes, packWord_byteLane]

/-- Where a 4-byte read finds a word, the message word is the same (42_compression.md R130). -/
theorem messageWord_of_blockReadWord {m : Memory} {k : BitVec 4} {v : Word}
    (h : blockReadWord m (4 * k.toNat) = some v) : messageWord m k = v := by
  unfold blockReadWord at h
  split at h
  case h_1 h0 h1 h2 h3 => simpa [messageWord, storedByte, h0, h1, h2, h3] using h
  case h_2 => cases h

theorem toNat_wordIndex {k : Nat} (hk : k < 16) : (BitVec.ofNat 4 k).toNat = k := by
  rw [BitVec.toNat_ofNat]; omega

/-- Settles O47: the stored word is what a 4-byte read finds, and so what the host gets and the rounds use. -/
theorem storedWordIsReadAndUsed : Obligations.StoredWordIsReadAndUsed := by
  intro s t k v hf hb hk h
  rw [exec_wr32_block v hf hb hk] at h
  have ht := Host.Outcome.next.inj h
  have hft : t.fault = none := ht ▸ hf
  have hread : blockReadWord t.block (4 * k) = some v := ht ▸ blockReadWord_writeBytes_same s.block (4 * k) v
  refine ⟨?read, messageWord_of_blockReadWord ?used⟩
  case read =>
    rw [exec_rd32_block hft hk, hread]
    rfl
  case used => rwa [toNat_wordIndex hk]

/-! ### A stored byte as a lane of its message word -/

theorem storedByte_write_same (m : Memory) (i : Nat) (v : Byte) : storedByte (blockWrite m i v) i = v := by
  simp [storedByte]

theorem storedByte_write_other (m : Memory) {i a : Nat} (v : Byte) (h : a ≠ i) :
    storedByte (blockWrite m i v) a = storedByte m a := by
  rw [storedByte, blockRead_write_other m v h, storedByte]

theorem byteLane_packWord (b0 b1 b2 b3 : Byte) :
    byteLane (packWord b0 b1 b2 b3) 0 = b0 ∧ byteLane (packWord b0 b1 b2 b3) 1 = b1 ∧
      byteLane (packWord b0 b1 b2 b3) 2 = b2 ∧ byteLane (packWord b0 b1 b2 b3) 3 = b3 := by
  unfold byteLane packWord
  refine ⟨?lane0, ?lane1, ?lane2, ?lane3⟩
  case lane0 => rw [BitVec.extractLsb'_append_eq_of_add_le (by decide), BitVec.extractLsb'_eq_self]
  case lane1 =>
    rw [BitVec.extractLsb'_append_eq_of_le (by decide), BitVec.extractLsb'_append_eq_of_add_le (by decide),
      BitVec.extractLsb'_eq_self]
  case lane2 =>
    rw [BitVec.extractLsb'_append_eq_of_le (by decide), BitVec.extractLsb'_append_eq_of_le (by decide),
      BitVec.extractLsb'_append_eq_of_add_le (by decide), BitVec.extractLsb'_eq_self]
  case lane3 =>
    rw [BitVec.extractLsb'_append_eq_of_le (by decide), BitVec.extractLsb'_append_eq_of_le (by decide),
      BitVec.extractLsb'_append_eq_of_le (by decide), BitVec.extractLsb'_eq_self]

/-- Lane `q` of message word `k` is block byte `4k + q` (42_compression.md R130). -/
theorem byteLane_messageWord (m : Memory) {k q : Nat} (hk : k < 16) (hq : q < 4) :
    byteLane (messageWord m (BitVec.ofNat 4 k)) q = storedByte m (4 * k + q) := by
  rw [messageWord, toNat_wordIndex hk]
  obtain ⟨h0, h1, h2, h3⟩ := byteLane_packWord (storedByte m (4 * k)) (storedByte m (4 * k + 1))
    (storedByte m (4 * k + 2)) (storedByte m (4 * k + 3))
  match q, hq with
  | 0, _ => exact h0
  | 1, _ => exact h1
  | 2, _ => exact h2
  | 3, _ => exact h3

/-- A byte stored outside the four of message word `k` leaves it as it was. -/
theorem messageWord_write_other (m : Memory) {i k : Nat} (v : Byte) (hk : k < 16) (hi : i / 4 ≠ k) :
    messageWord (blockWrite m i v) (BitVec.ofNat 4 k) = messageWord m (BitVec.ofNat 4 k) := by
  rw [messageWord, messageWord, toNat_wordIndex hk, storedByte_write_other m v (by omega),
    storedByte_write_other m v (by omega), storedByte_write_other m v (by omega), storedByte_write_other m v (by omega)]

/-- Settles O48: a lane of a message word is one block byte, and the write changes byte `4k + q` alone. -/
theorem storedByteIsItsLane : Obligations.StoredByteIsItsLane := by
  intro s t k q v hf hb hk hq h
  rw [Nat.add_assoc, exec_wr8_block v hf hb (by omega)] at h
  cases h
  refine ⟨?lane, fun q' hq' hne => ?otherLane, fun k' hk' hne => ?otherWord⟩
  case lane => rw [byteLane_messageWord _ hk hq, respond_block, storedByte_write_same]
  case otherLane =>
    rw [byteLane_messageWord _ hk hq', byteLane_messageWord _ hk hq', respond_block,
      storedByte_write_other _ v (by omega)]
  case otherWord => exact messageWord_write_other s.block v hk' (by omega)

/-! ### The engines of a platform -/

/-- The window of an engine is the 256 addresses from its ENGINE_BASE on (20_memory.md R50). -/
theorem window_iff (addr : Nat) (sl : Slot) :
    addr / 256 = sl.baseIndex ↔ sl.base ≤ addr ∧ addr < sl.base + 256 := by
  unfold Slot.base; omega

theorem baseIndex_of_window (sl : Slot) (off : BitVec 8) : (sl.base + off.toNat) / 256 = sl.baseIndex :=
  (window_iff _ sl).2 ⟨Nat.le_add_right _ _, Nat.add_lt_add_left off.isLt _⟩

theorem windowOffset_base_add (sl : Slot) (off : BitVec 8) : windowOffset (sl.base + off.toNat) = off := by
  apply BitVec.eq_of_toNat_eq
  rw [windowOffset, BitVec.toNat_ofNat, Slot.base, Nat.mul_add_mod, Nat.mod_eq_of_lt off.isLt]

theorem slotAccess_outside {addr : Nat} {sl : Slot} (op : BitVec 3) (data : Word) (h : addr / 256 ≠ sl.baseIndex) :
    slotAccess addr op data sl = sl := if_neg h

theorem slotAccess_inside (sl : Slot) (off : BitVec 8) (op : BitVec 3) (data : Word) :
    slotAccess (sl.base + off.toNat) op data sl =
      { sl with engine := { sl.engine with turns := .host ⟨op, off, data⟩ :: sl.engine.turns } } := by
  rw [slotAccess, if_pos (baseIndex_of_window sl off), windowOffset_base_add]

theorem platformAccess_getElem? (addr k : Nat) (op : BitVec 3) (data : Word) (p : Platform) :
    (platformAccess addr op data p)[k]? = p[k]?.map (slotAccess addr op data) := List.getElem?_map

/-- On a well-formed platform no two engines share a base (20_memory.md R65). -/
theorem baseIndex_ne_of_wellFormed {p : Platform} {i k : Nat} {sl sl' : Slot} (hp : platformWellFormed p = true)
    (hi : p[i]? = some sl) (hk : p[k]? = some sl') (hne : k ≠ i) : sl.baseIndex ≠ sl'.baseIndex := by
  simp only [platformWellFormed, Bool.and_eq_true, decide_eq_true_eq] at hp
  obtain ⟨_, hnodup⟩ := hp
  obtain ⟨hlt, _⟩ := List.getElem?_eq_some_iff.1 hi
  intro heq
  refine hne ((List.getElem?_inj (by simpa using hlt) hnodup).1 ?_).symm
  rw [List.getElem?_map, List.getElem?_map, hi, hk, Option.map_some, Option.map_some, heq]

/-- Settles O54: a step modifies its own slot alone, and an access the slots whose window holds its address, of which a
well-formed platform has one. -/
theorem enginesAreIndependent : Obligations.EnginesAreIndependent := by
  refine ⟨?step, ?outside, ?inside, ?others⟩
  case step => exact fun p i k hne => List.getElem?_modify_ne slotStep p hne.symm
  case outside =>
    intro p addr k op data sl hk hout
    rw [platformAccess_getElem?, hk, Option.map_some, slotAccess_outside op data (mt (window_iff addr sl).1 hout)]
  case inside =>
    intro p off k op data sl hk
    rw [platformAccess_getElem?, hk, Option.map_some, slotAccess_inside]
  case others =>
    intro p i k off op data sl hp hi hne
    rw [platformAccess_getElem?]
    cases hk : p[k]? with
    | none => rfl
    | some sl' =>
      have hbase : (sl.base + off.toNat) / 256 ≠ sl'.baseIndex := by
        rw [baseIndex_of_window]
        exact baseIndex_ne_of_wellFormed hp hi hk hne
      rw [Option.map_some, slotAccess_outside op data hbase]

end Sys2Proof.Machine
end

section
/-! Proofs of the statements of 30_encoding.md: decoder and encoder agree, the legal CTRL words, the placing of table
words, and POLL. -/

namespace Sys2Proof.Machine

/-! ### The CTRL words (30_encoding.md R72) -/

/-- A word with an upper bit set is illegal. -/
theorem decodeCtrl_of_upperBits {w : Word} (h : 8 ≤ w.toNat) : decodeCtrl w = .illegal := by
  refine if_pos fun hz => ?_
  have hq : w.toNat / 2 ^ 3 % 2 ^ 29 = 0 := by
    simpa [BitVec.extractLsb'_toNat, Nat.shiftRight_eq_div_pow] using congrArg BitVec.toNat hz
  have hlt := w.isLt
  omega

/-- The decoder's answer to every CTRL word: four words are commands, all others illegal. -/
theorem decodeCtrl_eq (w : Word) :
    decodeCtrl w =
      if w = 0x00000000 then .nop
      else if w = 0x00000001 then .init
      else if w = 0x00000002 then .compress false
      else if w = 0x00000006 then .compress true
      else .illegal := by
  by_cases h : w.toNat < 8
  · obtain ⟨n, hn, rfl⟩ : ∃ n < 8, w = BitVec.ofNat 32 n := ⟨w.toNat, h, by simp⟩
    revert n
    decide
  · have hne (v : Word) (hv : v.toNat < 8) : w ≠ v := fun e => h (e ▸ hv)
    rw [decodeCtrl_of_upperBits (Nat.le_of_not_lt h), if_neg (hne _ (by decide)), if_neg (hne _ (by decide)),
      if_neg (hne _ (by decide)), if_neg (hne _ (by decide))]

/-- The legal words are the four of the table. -/
theorem decodeCtrl_legal_iff (w : Word) :
    decodeCtrl w ≠ .illegal ↔ w = 0x00000000 ∨ w = 0x00000001 ∨ w = 0x00000002 ∨ w = 0x00000006 := by
  rw [decodeCtrl_eq]
  split_ifs <;> simp_all

/-- Settles O4: the decoder's answer to every word, read at the four legal ones. -/
theorem ctrlWordLegalExactlyFour : Obligations.CtrlWordLegalExactlyFour :=
  ⟨decodeCtrl_legal_iff, rfl, rfl, rfl, rfl⟩

theorem legalCtrlWord_iff (w : Word) : legalCtrlWord w = true ↔ decodeCtrl w ≠ .illegal := by
  simp only [decodeCtrl_legal_iff, legalCtrlWord, Bool.or_eq_true, beq_iff_eq, or_assoc]

theorem decode_ctrl_ok_iff {w : Word} {i : Instr} :
    decode (.ctrl w) = .ok i ↔ instrOfCtrl (decodeCtrl w) = some i := by
  simp only [decode]
  cases instrOfCtrl (decodeCtrl w) <;> simp

/-- Encoding the command of a legal CTRL word gives the word back. -/
theorem encode_of_decode_ctrl {w : Word} {i : Instr} (h : decode (.ctrl w) = .ok i) : encode i = .ctrl w := by
  have hlegal : decodeCtrl w ≠ .illegal := by
    intro hc
    rw [decode_ctrl_ok_iff, hc] at h
    cases h
  obtain rfl | rfl | rfl | rfl := (decodeCtrl_legal_iff w).1 hlegal <;> cases h <;> rfl

/-! ### The 4-byte write (30_encoding.md R70, R78) -/

/-- The write that is well-formed as a WR32 decodes to itself. -/
theorem decodeWr32_of_wellFormed {off : BitVec 8} {v : Word} (h : (Instr.wr32 off v).wellFormed = true) :
    decodeWr32 off v = .wr32 off v := by
  by_cases ho : off = 0x00
  · have hill : decodeCtrl v = .illegal := by
      by_contra hl
      simp [Instr.wellFormed, ho, (legalCtrlWord_iff v).2 hl] at h
    rw [decodeWr32, if_pos ho, hill]
    rfl
  · rw [decodeWr32, if_neg ho]

/-- The two answers to a 4-byte write: the command of its CTRL word, or the well-formed WR32. -/
theorem decodeWr32_cases (off : BitVec 8) (v : Word) :
    (off = 0x00 ∧ decode (.ctrl v) = .ok (decodeWr32 off v)) ∨
      (decodeWr32 off v = .wr32 off v ∧ (Instr.wr32 off v).wellFormed = true) := by
  by_cases ho : off = 0x00
  · rw [decode_ctrl_ok_iff, decodeWr32, if_pos ho]
    cases hc : decodeCtrl v with
    | illegal =>
      have hl : legalCtrlWord v = false := by
        rw [← Bool.not_eq_true, legalCtrlWord_iff, hc]
        exact not_not.2 rfl
      exact .inr ⟨rfl, by simp [Instr.wellFormed, hl]⟩
    | nop | init | compress => exact .inl ⟨ho, rfl⟩
  · exact .inr ⟨by rw [decodeWr32, if_neg ho], by simpa [Instr.wellFormed] using .inl ho⟩

/-- The access that carries a decodable item decodes to the item's instruction. -/
theorem decode_carrier {it : Item} {a : Access} {i : Instr} (hc : carrier it = some a) (h : decode it = .ok i) :
    decode (.bus a.op a.off a.data) = .ok i := by
  cases it with
  | ctrl w =>
    cases hc
    have hi : decodeWr32 0x00 w = i := by
      rw [decodeWr32, if_pos rfl, decode_ctrl_ok_iff.1 h]
      rfl
    exact congrArg Except.ok hi
  | bus op off data => cases hc; exact h
  | rsel sel => cases hc

/-! ### Decoding the encoding, and the encoding of what is decoded -/

theorem extractLsb'_setWidth_byte (v : Byte) : (v.setWidth 32).extractLsb' 0 8 = v := by
  rw [← BitVec.setWidth_eq_extractLsb' (by decide), BitVec.setWidth_setWidth_of_le v (by decide), BitVec.setWidth_eq]

theorem decode_encode {i : Instr} (h : i.wellFormed = true) : decode (encode i) = .ok i := by
  cases i with
  | nop | init | rd8 | rd32 | roundF | roundG | roundH | roundI => rfl
  | compress last => cases last <;> rfl
  | wr8 off v => exact congrArg (Except.ok <| Instr.wr8 off ·) (extractLsb'_setWidth_byte v)
  | wr32 off v => exact congrArg Except.ok (decodeWr32_of_wellFormed h)

/-- Settles O1: the item of the encoding decodes to the instruction, and so does any item's carrier. -/
theorem decodeOfEncodeIsIdentity : Obligations.DecodeOfEncodeIsIdentity :=
  fun _ h => ⟨decode_encode h, fun _ hc => decode_carrier hc (decode_encode h)⟩

theorem wellFormed_of_decode_ctrl {w : Word} {i : Instr} (h : decode (.ctrl w) = .ok i) : i.wellFormed = true := by
  rw [decode_ctrl_ok_iff] at h
  generalize decodeCtrl w = c at h
  cases c with
  | illegal => cases h
  | nop | init | compress => cases h; rfl

/-- Settles O2: of a format's instructions only a WR32 can be ill-formed, and the decoder answers it just where it is
not. -/
theorem decodedInstructionIsWellFormed : Obligations.DecodedInstructionIsWellFormed := by
  intro it i h
  cases it with
  | ctrl w => exact wellFormed_of_decode_ctrl h
  | bus op off data =>
    obtain ⟨_, rfl⟩ | ⟨_, rfl⟩ | ⟨_, rfl⟩ | ⟨_, rfl⟩ := decodeBus_ok_cases h
    · rfl
    · rfl
    · rfl
    · obtain ⟨_, hctrl⟩ | ⟨hwr, hwf⟩ := decodeWr32_cases off data
      · exact wellFormed_of_decode_ctrl hctrl
      · rwa [hwr]
  | rsel sel =>
    cases h
    unfold decodeRsel
    split <;> rfl

/-- Encoding the operation of a round selector gives the selector back. -/
theorem encode_decodeRsel (sel : BitVec 2) : encode (decodeRsel sel) = .rsel sel := by
  revert sel
  decide

/-- Two accesses with the same descriptor and offset, and the same data as far as a write uses it (assumption 9). -/
def SameUsed (a a' : Access) : Prop :=
  a.op = a'.op ∧ a.off = a'.off ∧ (a.op = 0b001 → a.data.extractLsb' 0 8 = a'.data.extractLsb' 0 8) ∧
    (a.op = 0b101 → a.data = a'.data)

/-- The carrier of a decoded access's instruction is that access, but for data no access uses. -/
theorem carrier_encode_of_decode_bus {op : BitVec 3} {off : BitVec 8} {data : Word} {i : Instr}
    (h : decode (.bus op off data) = .ok i) :
    ∃ a, carrier (encode i) = some a ∧ SameUsed ⟨op, off, data⟩ a := by
  obtain ⟨rfl, rfl⟩ | ⟨rfl, rfl⟩ | ⟨rfl, rfl⟩ | ⟨rfl, rfl⟩ := decodeBus_ok_cases h
  · exact ⟨_, rfl, rfl, rfl, nofun, nofun⟩
  · exact ⟨_, rfl, rfl, rfl, fun _ => (extractLsb'_setWidth_byte _).symm, nofun⟩
  · exact ⟨_, rfl, rfl, rfl, nofun, nofun⟩
  · have hc : carrier (encode (decodeWr32 off data)) = some ⟨0b101, off, data⟩ := by
      obtain ⟨rfl, hctrl⟩ | ⟨hwr, _⟩ := decodeWr32_cases off data
      · rw [encode_of_decode_ctrl hctrl]; rfl
      · rw [hwr]; rfl
    exact ⟨_, hc, rfl, rfl, nofun, fun _ => rfl⟩

/-- Settles O3: the encoder gives back the word of a CTRL or RSEL item and the used part of an access, so the decoded
instruction fixes them. -/
theorem wordsOfAFormatHaveOneMeaning : Obligations.WordsOfAFormatHaveOneMeaning := by
  refine ⟨?ctrl, ?rsel, ?bus⟩
  case ctrl =>
    intro w w' i h h'
    exact Item.ctrl.inj ((encode_of_decode_ctrl h).symm.trans (encode_of_decode_ctrl h'))
  case rsel =>
    intro sel sel' i h h'
    have hi : decodeRsel sel = decodeRsel sel' := Except.ok.inj (h.trans h'.symm)
    exact Item.rsel.inj (by rw [← encode_decodeRsel sel, hi, encode_decodeRsel])
  case bus =>
    intro op op' off off' data data' i h h'
    obtain ⟨a, hc, hop, hoff, hbyte, hword⟩ := carrier_encode_of_decode_bus h
    obtain ⟨a', hc', hop', hoff', hbyte', hword'⟩ := carrier_encode_of_decode_bus h'
    obtain rfl : a = a' := Option.some.inj (hc.symm.trans hc')
    have hopeq : op = op' := hop.trans hop'.symm
    exact ⟨hopeq, hoff.trans hoff'.symm, fun ho => (hbyte ho).trans (hbyte' (hopeq ▸ ho)).symm,
      fun ho => (hword ho).trans (hword' (hopeq ▸ ho)).symm⟩

/-- Settles O5: the decoder's answer to each of the twelve words. -/
theorem specWordsDecode : Obligations.SpecWordsDecode :=
  ⟨rfl, rfl, rfl, rfl, rfl, rfl, rfl, rfl, rfl, rfl, rfl, rfl⟩

/-! ### Placing a word of the opcode table (assumption 11) -/

section
variable {nbits w : Nat}

theorem withFetchWord_eq {it : Item} (h : tableItem nbits w = some it) (s : State) :
    s.withFetchWord nbits w = placeItem s it := by
  simp only [State.withFetchWord, placeTableWord, h]

/-- A placed word that an access carries is run as its instruction. -/
theorem step_withFetchWord_of_carrier {it : Item} {a : Access} {i : Instr} (ht : tableItem nbits w = some it)
    (hc : carrier it = some a) (hd : decode it = .ok i) (s : State) :
    step (s.withFetchWord nbits w) = exec i s := by
  have hturns : (placeItem s it).turns = .host a :: s.turns := by simp only [placeItem, hc]
  have hrest : { placeItem s it with turns := s.turns } = s := by simp only [placeItem, hc]
  rw [withFetchWord_eq ht, step_of_turns_cons hturns, hrest]
  exact hostTurn_of_decode_ok (decode_carrier hc hd) s

/-- A placed round selector is run as its operation, in the first round of its group. -/
theorem step_withFetchWord_of_rsel {sel : BitVec 2} (ht : tableItem nbits w = some (.rsel sel)) {s : State}
    (hf : s.fault = none) :
    step (s.withFetchWord nbits w) =
      exec (decodeRsel sel) { s with busy := true, j := BitVec.ofNat 7 (16 * sel.toNat) } := by
  have hlt := sel.isLt
  have hj : (BitVec.ofNat 7 (16 * sel.toNat)).toNat = 16 * sel.toNat := by
    rw [BitVec.toNat_ofNat]; omega
  have hsel : BitVec.ofNat 2 ((BitVec.ofNat 7 (16 * sel.toNat)).toNat / 16) = sel := by
    rw [hj, Nat.mul_div_cancel_left _ (by decide), BitVec.ofNat_toNat, BitVec.setWidth_eq]
  rw [withFetchWord_eq ht, step_of_turns_cons rfl]
  exact engineTurn_of_round hf rfl (hj.trans_lt (by omega)) (congrArg (Except.ok <| decodeRsel ·) hsel)

end

/-- Settles O7: seven of the words are carried by an access, four are round selectors. -/
theorem placedTableWordRuns : Obligations.PlacedTableWordRuns :=
  ⟨step_withFetchWord_of_carrier rfl rfl rfl _, step_withFetchWord_of_carrier rfl rfl rfl _,
    step_withFetchWord_of_carrier rfl rfl rfl _, step_withFetchWord_of_carrier rfl rfl rfl _,
    step_withFetchWord_of_carrier rfl rfl rfl _, step_withFetchWord_of_carrier rfl rfl rfl _,
    step_withFetchWord_of_carrier rfl rfl rfl _, step_withFetchWord_of_rsel (sel := 0b00) rfl rfl,
    step_withFetchWord_of_rsel (sel := 0b01) rfl rfl, step_withFetchWord_of_rsel (sel := 0b10) rfl rfl,
    step_withFetchWord_of_rsel (sel := 0b11) rfl rfl⟩

/-! ### One read of POLL (30_encoding.md R78) -/

/-- STATUS as a number, bit by bit (10_state.md R42). -/
theorem statusWord_eq (s : State) :
    statusWord s = BitVec.ofNat 32 (s.busy.toNat + 2 * s.done.toNat + 4 * s.errCmd.toNat + 8 * s.errBusy.toNat
      + 16 * s.errSeq.toNat) := by
  unfold statusWord
  cases s.busy <;> cases s.done <;> cases s.errCmd <;> cases s.errBusy <;> cases s.errSeq <;> rfl

/-- With a fault recorded a read of POLL does nothing (assumption 10). -/
theorem move_host_poll_quiescent {r : HostRun} {rest : List HostOp} (h : r.program = .poll :: rest)
    (hf : r.engine.fault ≠ none) : move r .host = r := by
  simp only [move, hostMove, h, pollRead, applyTurn_quiescent _ hf]
  simp [accessResult, ← h]

/-- Settles O58: the three cases of a read, with STATUS as a number. -/
theorem pollReadsUntilIdle : Obligations.PollReadsUntilIdle := by
  intro r rest h
  rw [← statusWord_eq]
  exact ⟨move_host_poll_busy h, fun hf hb => ⟨move_host_poll_idle h hf hb, (statusWord_busy _).trans hb⟩,
    move_host_poll_quiescent h⟩

/-! ### POLL under an order fair to the engine (70_reset_and_hazards.md R239) -/

/-- The engine steps the busy period still takes. -/
def stepsLeft (s : State) : Nat := if s.busy then 64 - s.j.toNat + 1 else 0

theorem busy_eq_false_of_stepsLeft {s : State} (h : stepsLeft s = 0) : s.busy = false := by
  unfold stepsLeft at h
  split at h
  · cases h
  · simpa using ‹¬ s.busy = true›

/-- Every turn of the engine brings the end of the busy period one step nearer. -/
theorem stepsLeft_engine {s : State} (hf : s.fault = none) :
    stepsLeft (applyTurn s .engine) ≤ stepsLeft s - 1 := by
  cases hb : s.busy with
  | false => simp [applyTurn_engine_idle hb, stepsLeft, hb]
  | true =>
    obtain ⟨_, _, _, _, ⟨hb', hj, _⟩ | ⟨hb', _, _⟩⟩ := applyTurn_engine_busy hf hb
    · simp only [stepsLeft, hb, hb', if_true]
      omega
    · simp [stepsLeft, hb']

/-- `q` is where a run from `r` stands whose POLL, at the head of the program, has not ended; a block in flight at `r`
is still in flight, or its LAST is DONE. -/
structure Polling (r : HostRun) (rest : List HostOp) (q : HostRun) : Prop where
  program : q.program = .poll :: rest
  polls : q.polls = r.polls
  fault : q.engine.fault = none
  block : r.engine.busy = true →
    (q.engine.busy = true ∧ q.engine.last = r.engine.last) ∨
      (q.engine.busy = false ∧ q.engine.done = r.engine.last)

/-- Between `q` and `q'` the POLL that `r` began ends, as the statement EveryPollEnds says of it. -/
def EndsPoll (r : HostRun) (rest : List HostOp) (q q' : HostRun) : Prop :=
  ∃ v : Word, q.program = .poll :: rest ∧ q.polls = r.polls ∧ q'.program = rest ∧ q'.polls = v :: r.polls ∧
    v.getLsbD 0 = false ∧ (r.engine.busy = true → v.getLsbD 1 = r.engine.last) ∧ q'.engine.busy = false

section
variable {r q : HostRun} {rest : List HostOp}

/-- The engine's turn does not end POLL. -/
theorem Polling.engine (h : Polling r rest q) : Polling r rest (move q .engine) := by
  cases hb : q.engine.busy with
  | false => rwa [move_engine, applyTurn_engine_idle hb]
  | true =>
    obtain ⟨hf, hlast, _, _, hend⟩ := applyTurn_engine_busy h.fault hb
    refine ⟨h.program, h.polls, hf, fun hr => ?_⟩
    have hl : q.engine.last = r.engine.last := by
      obtain ⟨_, hl⟩ | ⟨hb', _⟩ := h.block hr
      · exact hl
      · cases hb.symm.trans hb'
    obtain ⟨hb', _⟩ | ⟨hb', _, hd⟩ := hend
    · exact .inl ⟨hb', hlast.trans hl⟩
    · exact .inr ⟨hb', hd.trans hl⟩

/-- A read while BUSY = 1 does not end POLL, and takes the engine no step further or back. -/
theorem Polling.host_busy (h : Polling r rest q) (hb : q.engine.busy = true) :
    Polling r rest (move q .host) ∧ stepsLeft (move q .host).engine = stepsLeft q.engine := by
  rw [move_host_poll_busy h.program h.fault hb]
  exact ⟨⟨h.program, h.polls, h.fault, h.block⟩, rfl⟩

/-- A read with BUSY = 0 ends POLL. -/
theorem Polling.host_idle (h : Polling r rest q) (hb : q.engine.busy = false) : EndsPoll r rest q (move q .host) := by
  rw [move_host_poll_idle h.program h.fault hb]
  refine ⟨statusWord q.engine, h.program, h.polls, rfl, by rw [h.polls], (statusWord_busy _).trans hb,
    fun hr => ?_, hb⟩
  obtain ⟨hb', _⟩ | ⟨_, hd⟩ := h.block hr
  · cases hb.symm.trans hb'
  · exact (statusWord_done _).trans hd

end

/-- After `n` moves the POLL that `r` began has ended, or goes on with at most `c` engine steps to come. -/
def PollProgress (r : HostRun) (rest : List HostOp) (order : Nat → Agent) (c n : Nat) : Prop :=
  (∃ k < n, EndsPoll r rest (runAgents order k r) (runAgents order (k + 1) r)) ∨
    (Polling r rest (runAgents order n r) ∧ stepsLeft (runAgents order n r).engine ≤ c)

section
variable {r : HostRun} {rest : List HostOp} {order : Nat → Agent} {c n m : Nat}

/-- A turn of the engine leaves one step fewer. -/
theorem PollProgress.engine (h : PollProgress r rest order c n) (ho : order n = .engine) :
    PollProgress r rest order (c - 1) (n + 1) := by
  obtain ⟨k, hk, hend⟩ | ⟨hp, hc⟩ := h
  · exact .inl ⟨k, by omega, hend⟩
  · refine .inr ?_
    rw [runAgents_succ, ho]
    exact ⟨hp.engine, (stepsLeft_engine hp.fault).trans (Nat.sub_le_sub_right hc 1)⟩

/-- No move leaves more steps. -/
theorem PollProgress.succ (h : PollProgress r rest order c n) : PollProgress r rest order c (n + 1) := by
  obtain ⟨k, hk, hend⟩ | ⟨hp, hc⟩ := h
  · exact .inl ⟨k, by omega, hend⟩
  cases ho : order n with
  | engine =>
    exact (PollProgress.engine (.inr ⟨hp, hc⟩) ho).imp_right fun ⟨hp', hc'⟩ => ⟨hp', hc'.trans (Nat.sub_le c 1)⟩
  | host =>
    cases hb : (runAgents order n r).engine.busy with
    | false =>
      refine .inl ⟨n, Nat.lt_succ_self n, ?_⟩
      rw [runAgents_succ, ho]
      exact hp.host_idle hb
    | true =>
      obtain ⟨hp', hc'⟩ := hp.host_busy hb
      refine .inr ?_
      rw [runAgents_succ, ho]
      exact ⟨hp', hc'.trans_le hc⟩

theorem PollProgress.le (h : PollProgress r rest order c n) (hm : n ≤ m) : PollProgress r rest order c m := by
  induction m, hm using Nat.le_induction with
  | base => exact h
  | succ m _ ih => exact ih.succ

/-- Under an order fair to the engine the steps to come run out. -/
theorem PollProgress.eventually (hfair : Fair .engine order) (h : PollProgress r rest order c n) :
    ∃ m, PollProgress r rest order 0 m := by
  induction c generalizing n with
  | zero => exact ⟨n, h⟩
  | succ c ih =>
    obtain ⟨m, hm, ho⟩ := hfair n
    exact ih ((h.le hm).engine ho)

/-- With no engine step to come the host's read ends POLL, if no read before did. -/
theorem PollProgress.ends (h : PollProgress r rest order 0 n) (ho : order n = .host) :
    ∃ k ≤ n, EndsPoll r rest (runAgents order k r) (runAgents order (k + 1) r) := by
  obtain ⟨k, hk, hend⟩ | ⟨hp, hc⟩ := h
  · exact ⟨k, by omega, hend⟩
  · refine ⟨n, le_rfl, ?_⟩
    rw [runAgents_succ, ho]
    exact hp.host_idle (busy_eq_false_of_stepsLeft (Nat.le_zero.1 hc))

end

/-- Settles O59: every engine turn takes a step off the busy period and no read puts one back, so from some point on a
read finds BUSY = 0. -/
theorem everyPollEnds : Obligations.EveryPollEnds := by
  intro r rest order h hf hfair
  have hstart : PollProgress r rest order (stepsLeft r.engine) 0 :=
    .inr ⟨⟨h, rfl, hf, fun hb => .inl ⟨hb, rfl⟩⟩, le_rfl⟩
  obtain ⟨n, hn⟩ := hstart.eventually hfair
  refine ⟨n, fun m hm ho => ?_⟩
  obtain ⟨k, hk, v, hend⟩ := (hn.le hm).ends ho
  exact ⟨k, v, hk, hend⟩

end Sys2Proof.Machine
end

section
/-! Proofs of the statements of 40_primitives.md: the word primitives, and the four round operations built from them. -/

namespace Sys2Proof.Machine

/-! ### Addition (40_primitives.md R100, R101) -/

/-- ADD32 is the addition of 32-bit words, so the library's laws of addition are its laws. -/
@[simp] theorem add32_eq_add (x y : Word) : add32 x y = x + y := rfl

/-- The round's nested sum is its four words' sum, reduced once. -/
theorem toNat_add_four (f x t a : Word) :
    (f + x + t + a).toNat = (f.toNat + x.toNat + t.toNat + a.toNat) % 2 ^ 32 := by
  simp only [BitVec.toNat_add, Nat.mod_add_mod]

/-- Settles O26: ADD32 is the addition of 32-bit words, which is commutative and associative. -/
theorem add32WrapsInAnyOrder : Obligations.Add32WrapsInAnyOrder := by
  unfold Obligations.Add32WrapsInAnyOrder
  simp only [add32_eq_add]
  exact ⟨BitVec.toNat_add, BitVec.add_comm, BitVec.add_assoc, toNat_add_four⟩

/-! ### Rotation (40_primitives.md R102) -/

/-- Inside its domain ROTL32 is the library's rotation. -/
theorem rotl32_eq_rotateLeft (x : Word) {n : Nat} (h0 : 0 < n) (h : n < 32) :
    rotl32 x n = some (x.rotateLeft n) := by
  rw [rotl32, if_pos ⟨h0, h⟩, BitVec.rotateLeft_eq_rotateLeftAux_of_lt h]
  rfl

theorem rotl32_none (x : Word) {n : Nat} (h : n = 0 ∨ 32 ≤ n) : rotl32 x n = none :=
  if_neg (by omega)

/-- Rotating left moves bit `i - n` to bit `i`, the index counted modulo 32. -/
theorem getLsbD_rotateLeft_mod (x : Word) {n i : Nat} (h : n < 32) (hi : i < 32) :
    (x.rotateLeft n).getLsbD i = x.getLsbD ((i + 32 - n) % 32) := by
  rw [BitVec.getLsbD_rotateLeft_of_le h]
  by_cases hin : i < n
  · have wraps : (i + 32 - n) % 32 = 32 - n + i := by omega
    simp [hin, wraps]
  · have stays : (i + 32 - n) % 32 = i - n := by omega
    simp [hin, hi, stays]

/-- The formula on numbers: the bits shifted out at the top are cut off by the modulus. -/
theorem toNat_rotateLeft_eq (x : Word) {n : Nat} (h : n < 32) :
    (x.rotateLeft n).toNat = ((x.toNat <<< n) ||| (x.toNat >>> (32 - n))) % 2 ^ 32 := by
  have hright : x.toNat >>> (32 - n) < 2 ^ 32 := (Nat.shiftRight_le _ _).trans_lt x.isLt
  rw [BitVec.toNat_rotateLeft, Nat.mod_eq_of_lt h, Nat.or_mod_two_pow, Nat.mod_eq_of_lt hright]

/-- Rotating by `n` and then by `32 - n` moves every bit once round. -/
theorem rotateLeft_rotateLeft_sub (x : Word) {n : Nat} (h0 : 0 < n) (h : n < 32) :
    (x.rotateLeft n).rotateLeft (32 - n) = x := by
  refine BitVec.eq_of_getLsbD_eq fun i hi => ?_
  rw [getLsbD_rotateLeft_mod _ (by omega) hi, getLsbD_rotateLeft_mod _ h (Nat.mod_lt _ (by decide))]
  congr 1
  omega

/-- The entries of the S ROM (41_rom_tables.md R121), in increasing order: the amounts ROTL32 is used with. -/
theorem shiftAmount_mem : ∀ sel col : BitVec 2,
    (shiftAmount sel col).toNat ∈ [4, 5, 6, 7, 9, 10, 11, 12, 14, 15, 16, 17, 20, 21, 22, 23] := by decide

/-- Settles O27: inside 1..31 ROTL32 is the library's rotation, outside it has no value, and the amounts are read off the
S ROM. -/
theorem rotl32BitsAndDomain : Obligations.Rotl32BitsAndDomain := by
  refine ⟨fun x n h0 h => ⟨x.rotateLeft n, rotl32_eq_rotateLeft x h0 h, toNat_rotateLeft_eq x h,
    fun i hi => getLsbD_rotateLeft_mod x h hi, ?inverse⟩, fun x n => rotl32_none x, fun j => shiftAmount_mem _ _⟩
  case inverse => rw [rotl32_eq_rotateLeft _ (by omega) (by omega), rotateLeft_rotateLeft_sub x h0 h]

/-! ### The round functions (40_primitives.md R103 to R109) -/

theorem getLsbD_not32 (x : Word) {i : Nat} (hi : i < 32) : (not32 x).getLsbD i = !x.getLsbD i := by
  have ones : (0xFFFFFFFF : Word) = BitVec.allOnes 32 := rfl
  rw [not32, ones, BitVec.xor_allOnes, BitVec.getLsbD_not]
  simp [hi]

theorem getLsbD_fnF (b c d : Word) {i : Nat} (hi : i < 32) :
    (fnF b c d).getLsbD i = (b.getLsbD i && c.getLsbD i || !b.getLsbD i && d.getLsbD i) := by
  simp only [fnF, BitVec.getLsbD_or, BitVec.getLsbD_and, getLsbD_not32 _ hi]

theorem getLsbD_fnG (b c d : Word) {i : Nat} (hi : i < 32) :
    (fnG b c d).getLsbD i = (b.getLsbD i && d.getLsbD i || c.getLsbD i && !d.getLsbD i) := by
  simp only [fnG, BitVec.getLsbD_or, BitVec.getLsbD_and, getLsbD_not32 _ hi]

theorem getLsbD_fnH (b c d : Word) (i : Nat) :
    (fnH b c d).getLsbD i = (b.getLsbD i ^^ c.getLsbD i ^^ d.getLsbD i) := by
  simp only [fnH, BitVec.getLsbD_xor]

theorem getLsbD_fnI (b c d : Word) {i : Nat} (hi : i < 32) :
    (fnI b c d).getLsbD i = (c.getLsbD i ^^ (b.getLsbD i || !d.getLsbD i)) := by
  simp only [fnI, BitVec.getLsbD_or, BitVec.getLsbD_xor, getLsbD_not32 _ hi]

/-- Settles O28: each function's bit is its formula on the three bits, and the table lists that formula's values for the
eight combinations. -/
theorem roundFunctionsFollowBitTable : Obligations.RoundFunctionsFollowBitTable := by
  intro b c d i hi
  refine ⟨(getLsbD_fnF b c d hi).trans ?_, (getLsbD_fnG b c d hi).trans ?_, (getLsbD_fnH b c d i).trans ?_,
    (getLsbD_fnI b c d hi).trans ?_⟩ <;>
    generalize b.getLsbD i = bi, c.getLsbD i = ci, d.getLsbD i = di <;>
    decide +revert

/-! ### The round operations (42_compression.md R132) -/

/-- The S ROM's amounts lie in ROTL32's domain. -/
theorem shiftAmount_bounds (sel col : BitVec 2) :
    0 < (shiftAmount sel col).toNat ∧ (shiftAmount sel col).toNat < 32 := by
  have bounds : ∀ n ∈ [4, 5, 6, 7, 9, 10, 11, 12, 14, 15, 16, 17, 20, 21, 22, 23], 0 < n ∧ n < 32 := by decide
  exact bounds _ (shiftAmount_mem sel col)

theorem toNat_roundIndex {s : State} (hj : s.j.toNat < 64) : (roundIndex s).toNat = s.j.toNat := by
  simpa [roundIndex, BitVec.extractLsb'_toNat] using hj

/-- The column j[1:0] is the round's place in its group of four (30_encoding.md R76). -/
theorem toNat_colOf (j : BitVec 6) : (colOf j).toNat = j.toNat % 4 := by
  simp [colOf, BitVec.extractLsb'_toNat]

/-- The shift amounts of a group, by column: its row of the table of 41_rom_tables.md R121. -/
def groupShifts (sel : BitVec 2) : List Nat :=
  match sel.toNat with
  | 0 => [7, 12, 17, 22]
  | 1 => [5, 9, 14, 20]
  | 2 => [4, 11, 16, 23]
  | _ => [6, 10, 15, 21]

theorem shiftAmount_eq : ∀ sel col : BitVec 2,
    (shiftAmount sel col).toNat = (groupShifts sel).getD col.toNat 0 := by decide

/-- The message index of a group's round before its reduction modulo 16 (41_rom_tables.md R122). -/
def groupIndex (sel : BitVec 2) (j : Nat) : Nat :=
  match sel.toNat with
  | 0 => j
  | 1 => 5 * j + 1
  | 2 => 3 * j + 5
  | _ => 7 * j

/-- The generator's narrowing to 4 bits is the rule's reduction modulo 16. -/
theorem messageIndex_eq (j : BitVec 6) :
    messageIndex j = BitVec.ofNat 4 (groupIndex (selOf j) j.toNat % 16) := by
  calc messageIndex j
      _ = BitVec.ofNat 4 (groupIndex (selOf j) j.toNat) := by
        unfold messageIndex groupIndex
        split <;> simp only [*]
      _ = _ := BitVec.eq_of_toNat_eq (by simp)

/-- The 16 rounds of a group have the group's number as their selector. -/
theorem selOf_roundIndex_of_group {sel : BitVec 2} {s : State} (hgroup : s.j.toNat / 16 = sel.toNat) :
    selOf (roundIndex s) = sel := by
  rw [selOf_roundIndex s (by omega), hgroup, BitVec.ofNat_toNat, BitVec.setWidth_eq]

/-- A round operation completes in the rounds of its own group. -/
theorem roundOperation_completes {sel : BitVec 2} {s : State} (hf : s.fault = none) (hb : s.busy = true)
    (hgroup : s.j.toNat / 16 = sel.toNat) : roundOperation sel s = .next (roundStep s) := by
  have hen : roundEnabled sel s = true :=
    roundEnabled_iff.2 ⟨hb, by omega, selOf_roundIndex_of_group hgroup⟩
  simp only [roundOperation, hf, hen, if_true]

/-- What a round rotates (R132): the round function's value, the message word `k`, T[j] and `a`, added. -/
def roundSum (sel : BitVec 2) (k : BitVec 4) (s : State) : Word :=
  roundFunction sel s.work.b s.work.c s.work.d + messageWord s.block k + tRom.getD s.j.toNat 0 + s.work.a

/-- The state after a round whose rotation gave `r`: the working registers moved on by one place, and j one more. -/
def afterRound (r : Word) (s : State) : State :=
  { s with work := ⟨s.work.d, r + s.work.b, s.work.b, s.work.c⟩, j := BitVec.ofNat 7 (s.j.toNat + 1) }

/-- The round step rotates the round's sum by the S ROM's entry, and moves the registers on. -/
theorem roundStep_eq_afterRound {sel : BitVec 2} {s : State} (hj : s.j.toNat < 64) (hsel : selOf (roundIndex s) = sel) :
    roundStep s = afterRound (rotateLeft (roundSum sel (messageIndex (roundIndex s)) s)
      (shiftAmount sel (colOf (roundIndex s))).toNat) s := by
  simp only [roundStep, roundRegs, hsel, roundConstant, toNat_roundIndex hj, add32_eq_add]
  rfl

/-- What a completed round operation does: ROTL32 of the round's sum has a value, and the registers move on by it. The
message word and the amount are those of the schedule tables (41_rom_tables.md R121, R122). -/
theorem roundOperation_afterRound {sel : BitVec 2} {s : State} (hf : s.fault = none) (hb : s.busy = true)
    (hgroup : s.j.toNat / 16 = sel.toNat) :
    ∃ r, rotl32 (roundSum sel (BitVec.ofNat 4 (groupIndex sel s.j.toNat % 16)) s)
        ((groupShifts sel).getD (s.j.toNat % 4) 0) = some r ∧
      roundOperation sel s = .next (afterRound r s) := by
  have hj : s.j.toNat < 64 := by omega
  have hsel := selOf_roundIndex_of_group hgroup
  have hindex : messageIndex (roundIndex s) = BitVec.ofNat 4 (groupIndex sel s.j.toNat % 16) := by
    rw [messageIndex_eq, hsel, toNat_roundIndex hj]
  have hshift : (shiftAmount sel (colOf (roundIndex s))).toNat = (groupShifts sel).getD (s.j.toNat % 4) 0 := by
    rw [shiftAmount_eq, toNat_colOf, toNat_roundIndex hj]
  have hstep := roundStep_eq_afterRound hj hsel
  rw [hindex, hshift] at hstep
  exact ⟨_, if_pos (hshift ▸ shiftAmount_bounds _ _), (roundOperation_completes hf hb hgroup).trans (congrArg _ hstep)⟩

/-- Settles O18: rounds 0..15 are the group of F. -/
theorem roundFCompletes : Obligations.RoundFCompletes :=
  fun _ hf hb hj => roundOperation_afterRound (sel := 0b00) hf hb (Nat.div_eq_of_lt hj)

/-- Settles O19: rounds 16..31 are the group of G. -/
theorem roundGCompletes : Obligations.RoundGCompletes :=
  fun _ hf hb hlo hhi => roundOperation_afterRound (sel := 0b01) hf hb (Nat.div_eq_of_lt_le hlo hhi)

/-- Settles O20: rounds 32..47 are the group of H. -/
theorem roundHCompletes : Obligations.RoundHCompletes :=
  fun _ hf hb hlo hhi => roundOperation_afterRound (sel := 0b10) hf hb (Nat.div_eq_of_lt_le hlo hhi)

/-- Settles O21: rounds 48..63 are the group of I. -/
theorem roundICompletes : Obligations.RoundICompletes :=
  fun _ hf hb hlo hhi => roundOperation_afterRound (sel := 0b11) hf hb (Nat.div_eq_of_lt_le hlo hhi)

end Sys2Proof.Machine
end

section
/-! Proofs of the statements of 41_rom_tables.md: what the ROMs hold and which message word each round reads. -/

namespace Sys2Proof.Machine

/-! ### The ROMs (R120, R121) -/

/-- The round index never leaves the T ROM: the default of `roundConstant` is not read. -/
theorem some_roundConstant (j : BitVec 6) : some (roundConstant j) = tRom[j.toNat]? := by
  have hj : j.toNat < tRom.length := j.isLt
  rw [roundConstant, List.getD_eq_getElem _ _ hj, List.getElem?_eq_getElem hj]

/-- The selector j[5:4] is the number of the round's group of 16 (30_encoding.md R75). -/
theorem toNat_selOf (j : BitVec 6) : (selOf j).toNat = j.toNat / 16 := by
  simp only [selOf, BitVec.extractLsb'_toNat, Nat.shiftRight_eq_div_pow]
  omega

/-- The rows of the shift table by group. -/
theorem groupShifts_eq_row : ∀ sel : BitVec 2,
    groupShifts sel =
      [[7, 12, 17, 22], [5, 9, 14, 20], [4, 11, 16, 23], [6, 10, 15, 21]].getD sel.toNat [] := by decide

/-- A round rotates by the entry of its group's row at its place in the group of four. -/
theorem shiftAmount_of_round (j : BitVec 6) :
    (shiftAmount (selOf j) (colOf j)).toNat =
      ([[7, 12, 17, 22], [5, 9, 14, 20], [4, 11, 16, 23], [6, 10, 15, 21]].getD (j.toNat / 16) []).getD
        (j.toNat % 4) 0 := by
  rw [shiftAmount_eq, groupShifts_eq_row, toNat_selOf, toNat_colOf]

/-- The least and the greatest amount of the S ROM. -/
theorem shiftAmount_range (sel col : BitVec 2) :
    4 ≤ (shiftAmount sel col).toNat ∧ (shiftAmount sel col).toNat ≤ 23 := by
  have range : ∀ n ∈ [4, 5, 6, 7, 9, 10, 11, 12, 14, 15, 16, 17, 20, 21, 22, 23], 4 ≤ n ∧ n ≤ 23 := by decide
  exact range _ (shiftAmount_mem sel col)

/-! ### The message index (R122, R123) -/

/-- The four formulas of R122 by group, reduced modulo 16. -/
theorem groupIndex_mod_eq (sel : BitVec 2) (j : Nat) :
    groupIndex sel j % 16 =
      [j % 16, (5 * j + 1) % 16, (3 * j + 5) % 16, (7 * j) % 16].getD sel.toNat 0 := by
  have groups : ∀ sel : BitVec 2, sel = 0 ∨ sel = 1 ∨ sel = 2 ∨ sel = 3 := by decide
  rcases groups sel with rfl | rfl | rfl | rfl <;> rfl

/-- The message index of a round is the formula of its group. -/
theorem toNat_messageIndex (j : BitVec 6) :
    (messageIndex j).toNat =
      [j.toNat % 16, (5 * j.toNat + 1) % 16, (3 * j.toNat + 5) % 16, (7 * j.toNat) % 16].getD (j.toNat / 16) 0 := by
  rw [messageIndex_eq, BitVec.toNat_ofNat, Nat.mod_mod, groupIndex_mod_eq, toNat_selOf]

/-- The round of a group that reads message word `k`: the group's formula solved for the round, where 13, 11 and 7 are
the inverses of the odd multipliers 5, 3 and 7 modulo 16. -/
def readingRound (sel : BitVec 2) (k : BitVec 4) : BitVec 6 :=
  match sel.toNat with
  | 0 => sel ++ k
  | 1 => sel ++ 13 * (k - 1)
  | 2 => sel ++ 11 * (k - 5)
  | _ => sel ++ 7 * k

/-- The reading round lies in its group. -/
theorem selOf_readingRound : ∀ (sel : BitVec 2) (k : BitVec 4), selOf (readingRound sel k) = sel := by decide

/-- The reading round reads its word. -/
theorem messageIndex_readingRound : ∀ (sel : BitVec 2) (k : BitVec 4),
    messageIndex (readingRound sel k) = k := by decide

/-- Every round is the reading round of its group and word. -/
theorem readingRound_of_round : ∀ j : BitVec 6, readingRound (selOf j) (messageIndex j) = j := by decide

/-- In each group every message word is read by exactly one round (R123). -/
theorem messageWord_read_once (sel : BitVec 2) (k : BitVec 4) :
    ∃ j : BitVec 6, selOf j = sel ∧ messageIndex j = k ∧
      ∀ j' : BitVec 6, selOf j' = sel → messageIndex j' = k → j' = j := by
  refine ⟨readingRound sel k, selOf_readingRound sel k, messageIndex_readingRound sel k, ?_⟩
  rintro j' rfl rfl
  exact (readingRound_of_round j').symm

/-- Settles O29: the list written out is the T ROM, and the other clauses are read off the S ROM and the generator; the
reading is once per group because the generator has an inverse there. -/
theorem scheduleFollowsTables : Obligations.ScheduleFollowsTables :=
  ⟨some_roundConstant, shiftAmount_of_round, shiftAmount_range, toNat_messageIndex, messageWord_read_once⟩

end Sys2Proof.Machine
end

section
/-! Proofs of the statements of 42_compression.md: the engine's step, the start and the end of a block, the message words,
and the compression of a block beside a host that keeps accessing. -/

namespace Sys2Proof.Machine

/-! ### The engine's step (R133, R134) -/

section
variable {s : State}

theorem engineTurn_idle (hb : s.busy = false) : engineTurn s = .next s := by
  simp [engineTurn_eq, hb]

theorem engineTurn_round (hf : s.fault = none) (hb : s.busy = true) (hj : s.j.toNat < 64) :
    engineTurn s = .next (roundStep s) := by
  simp only [engineTurn_eq, hf, hb, hj, and_self, if_true]

theorem engineTurn_accumulate (hf : s.fault = none) (hb : s.busy = true) (hj : s.j = 64) :
    engineTurn s = .next (accumulateStep s) := by
  simp [engineTurn_eq, hf, hb, hj]

end

/-- Settles O23: the step is the engine's turn, which does one of three things. -/
theorem engineTurnIsEngineStep : Obligations.EngineTurnIsEngineStep := by
  intro s ts ht hf
  refine ⟨fun hb => ?idle, fun hb hj => ?round, fun hb hj => ?accumulate⟩ <;> rw [step_of_turns_cons ht]
  case idle => exact engineTurn_idle hb
  case round => exact engineTurn_round hf hb hj
  case accumulate => exact engineTurn_accumulate hf hb hj

/-- Settles O24: the step is the accumulate step, whose fields are the stated ones. -/
theorem accumulateStepClosesBlock : Obligations.AccumulateStepClosesBlock := by
  intro s ts ht hf hb hj
  obtain ⟨_, _, haccumulate⟩ := engineTurnIsEngineStep s ts ht hf
  exact haccumulate hb hj

/-! ### The start of a block (R131) -/

/-- COMPRESS with BUSY = 0 and DONE = 0 is StartBlock (44_commands.md R164). -/
theorem exec_compress_idle {s : State} (last : Bool) (hf : s.fault = none) (hb : s.busy = false) (hd : s.done = false) :
    exec (.compress last) s = .next (startBlock last s) := by
  simp [exec, execCompress, hf, hb, doCompress, hd]

/-- Settles O35: StartBlock asks whether every written flag is 1. -/
theorem compressStartsBlock : Obligations.CompressStartsBlock := by
  intro s last hf hb hd
  rw [exec_compress_idle last hf hb hd]
  refine ⟨fun hall => ?complete, fun ⟨i, hi, hw⟩ => ?unwritten⟩
  case complete =>
    have hc : blockComplete s.block = true := by simpa [blockComplete] using hall
    rw [startBlock_complete last hc]
    rfl
  case unwritten =>
    have hc : blockComplete s.block = false := by simpa [blockComplete] using ⟨i, hi, hw⟩
    rw [startBlock_unwritten last hc]
    rfl

/-! ### A round operation out of its turn (R132) -/

/-- A round operation is enabled in the 16 rounds of its group, and there alone. -/
theorem roundEnabled_iff_group {sel : BitVec 2} {s : State} :
    roundEnabled sel s = true ↔ s.busy = true ∧ s.j.toNat / 16 = sel.toNat := by
  rw [roundEnabled_iff]
  refine and_congr_right fun _ => ⟨fun ⟨hj, hsel⟩ => ?_, fun hgroup => ⟨by omega, selOf_roundIndex_of_group hgroup⟩⟩
  rw [← hsel, toNat_selOf, toNat_roundIndex hj]

theorem roundOperation_refused {sel : BitVec 2} {s : State} (hf : s.fault = none)
    (h : ¬ (s.busy = true ∧ s.j.toNat / 16 = sel.toNat)) : roundOperation sel s = .refused .roundNotEnabled := by
  simp only [roundOperation, hf, roundEnabled_iff_group, h, if_false]

/-- Settles O22: outside the stated range j is not in the operation's group. -/
theorem roundOutsideItsTurnIsRefused : Obligations.RoundOutsideItsTurnIsRefused := by
  intro s hf
  refine ⟨fun h => ?F, fun h => ?G, fun h => ?H, fun h => ?I⟩
  case F => exact roundOperation_refused hf fun ⟨hb, (hgroup : s.j.toNat / 16 = 0)⟩ => h ⟨hb, by omega⟩
  case G => exact roundOperation_refused hf fun ⟨hb, (hgroup : s.j.toNat / 16 = 1)⟩ => h ⟨hb, by omega, by omega⟩
  case H => exact roundOperation_refused hf fun ⟨hb, (hgroup : s.j.toNat / 16 = 2)⟩ => h ⟨hb, by omega, by omega⟩
  case I => exact roundOperation_refused hf fun ⟨hb, (hgroup : s.j.toNat / 16 = 3)⟩ => h ⟨hb, by omega, by omega⟩

/-! ### The message words (R130) -/

/-- Four bytes as a number, the first least significant. -/
theorem toNat_packWord (b0 b1 b2 b3 : Byte) :
    (packWord b0 b1 b2 b3).toNat = b0.toNat + 2 ^ 8 * b1.toNat + 2 ^ 16 * b2.toNat + 2 ^ 24 * b3.toNat := by
  have append : ∀ {n : Nat} (x : BitVec n) (b : Byte), (x ++ b).toNat = x.toNat * 2 ^ 8 + b.toNat := fun x b => by
    rw [BitVec.toNat_append, ← Nat.shiftLeft_add_eq_or_of_lt b.isLt, Nat.shiftLeft_eq]
  unfold packWord
  rw [append, append, append]
  omega

theorem storedByte_of_read {m : Memory} {i : Nat} {v : Byte} (h : blockRead m i = some v) : storedByte m i = v := by
  simp [storedByte, h]

/-- Settles O30: a message word packs four stored bytes. -/
theorem messageWordIsLittleEndian : Obligations.MessageWordIsLittleEndian := by
  intro m k b0 b1 b2 b3 h0 h1 h2 h3
  rw [messageWord, storedByte_of_read h0, storedByte_of_read h1, storedByte_of_read h2, storedByte_of_read h3,
    toNat_packWord]

/-! ### The working registers are the first j rounds -/

theorem roundIndex_eq_ofNat (s : State) : roundIndex s = BitVec.ofNat 6 s.j.toNat :=
  BitVec.eq_of_toNat_eq (by simp [roundIndex, BitVec.extractLsb'_toNat])

/-- A host access keeps the datapath's invariant: COMPRESS starts at no round done, and nothing else writes a register,
A..D or the block while BUSY = 1. -/
theorem effect_keeps_datapathInv {s t : State} (h : Effect s t) (hs : DatapathInv s) : DatapathInv t := by
  cases h with
  | quiescent | responded | droppedBusy | droppedCmd | droppedSeq | faulted => exact hs
  | started => exact fun _ => ⟨Nat.zero_le 64, rfl⟩
  | initialised _ hb | stored _ _ _ hb => exact fun h => absurd (hb.symm.trans h) nofun

/-- A round adds one to the rounds done. -/
theorem roundStep_keeps_datapathInv {s : State} (hj : s.j.toNat < 64) (hs : DatapathInv s) :
    DatapathInv (roundStep s) := by
  intro hb
  obtain ⟨_, hwork⟩ := hs hb
  have hsucc : (s.j + 1).toNat = s.j.toNat + 1 := by bv_omega
  rw [roundStep_j, hsucc]
  refine ⟨hj, ?_⟩
  rw [roundStep_work, roundIndex_eq_ofNat, hwork]
  rfl

/-- No host access ends a busy period. -/
theorem effect_keeps_busy {s t : State} (h : Effect s t) (hb : s.busy = true) : t.busy = true := by
  cases h with
  | quiescent | responded | droppedBusy | droppedCmd | droppedSeq | initialised | stored | faulted => exact hb
  | started => rfl

/-- Settles O56: each kind of step keeps the invariant, and of those that are no reset only the accumulate step, which the
invariant lets happen after 64 rounds alone, clears BUSY. -/
theorem busyWorkingRegistersAreRounds : Obligations.BusyWorkingRegistersAreRounds := by
  refine ⟨nofun, fun s t hs h => ?_⟩
  have hpop : DatapathInv (popTurn s) := hs
  have still {u : State} (hu : u.busy = true) : u.busy ≠ false := hu ▸ nofun
  cases step_effect h with
  | idle => exact ⟨hpop, fun hb hb' => absurd hb' (still hb)⟩
  | effect he =>
    exact ⟨effect_keeps_datapathInv he hpop, fun hb hb' => absurd hb' (still (effect_keeps_busy he hb))⟩
  | rounded _ _ hj => exact ⟨roundStep_keeps_datapathInv hj hpop, fun hb hb' => absurd hb' (still hb)⟩
  | accumulated _ hb hj =>
    obtain ⟨hj', hwork⟩ := hs hb
    have h64 : s.j.toNat = 64 := by omega
    refine ⟨nofun, fun _ _ _ => ⟨?_, rfl⟩⟩
    rw [h64] at hwork
    exact congrArg s.chain.add hwork
  | reset hr => exact ⟨nofun, fun _ _ hn => absurd hr hn⟩

/-! ### A block from COMPRESS to its accumulate step (R135) -/

/-- `s` with a block in flight and `n` of its rounds done. ERR_BUSY, the responses and the coming turns are all that the
host's accesses meanwhile can change. -/
def inFlight (s : State) (n : Nat) (errBusy : Bool) (responses : List Response) (turns : List Turn) : State :=
  { s with
    work := rounds (messageWord s.block) n s.chain, j := BitVec.ofNat 7 n, busy := true
    errBusy := errBusy, responses := responses, turns := turns }

/-- The access that carries COMPRESS (30_encoding.md R72). -/
theorem hostTurn_compress (last : Bool) (s : State) :
    hostTurn ⟨0b101, 0x00, if last then 0x00000006 else 0x00000002⟩ s = exec (.compress last) s :=
  hostTurn_of_decode_ok (by cases last <;> rfl) s

/-- While BUSY = 1 and the block is complete, a host access reports and does nothing else: writes are dropped, and no read
meets an unwritten byte. -/
theorem effect_busy_complete {s t : State} (hf : s.fault = none) (hb : s.busy = true)
    (hc : blockComplete s.block = true) (h : Effect s t) :
    ∃ errBusy responses, t = { s with errBusy := errBusy, responses := responses } := by
  cases h with
  | quiescent h => exact absurd hf h
  | responded | droppedBusy => exact ⟨_, _, rfl⟩
  | droppedCmd _ h | droppedSeq _ h | initialised _ h | started _ _ h | stored _ _ _ h =>
    exact absurd (hb.symm.trans h) nofun
  | faulted _ _ _ h => exact absurd (hc.symm.trans h) nofun

section
variable {s : State} {n : Nat} {eb : Bool} {rs : List Response} {ts us : List Turn}

@[simp] theorem inFlight_fault : (inFlight s n eb rs ts).fault = s.fault := rfl

theorem roundStep_inFlight (hn : n < 64) : roundStep (inFlight s n eb rs ts) = inFlight s (n + 1) eb rs ts := by
  have hindex : roundIndex (inFlight s n eb rs ts) = BitVec.ofNat 6 n := by
    rw [roundIndex_eq_ofNat]
    exact congrArg (BitVec.ofNat 6) (Nat.mod_eq_of_lt (by omega))
  have hj : (inFlight s n eb rs ts).j + 1 = BitVec.ofNat 7 (n + 1) := (BitVec.ofNat_add n 1).symm
  rw [roundStep, hindex, hj]
  rfl

theorem step_inFlight (u : Turn) : step (inFlight s n eb rs (u :: ts)) = runTurn u (inFlight s n eb rs ts) :=
  step_of_turns_cons rfl

theorem step_inFlight_engine (hf : s.fault = none) (hn : n < 64) :
    step (inFlight s n eb rs (.engine :: ts)) = .next (inFlight s (n + 1) eb rs ts) := by
  have hj : (BitVec.ofNat 7 n).toNat < 64 := (Nat.mod_le n _).trans_lt hn
  rw [step_inFlight, ← roundStep_inFlight hn]
  exact engineTurn_round hf rfl hj

theorem step_inFlight_host (a : Access) (hf : s.fault = none) (hc : blockComplete s.block = true) :
    ∃ eb' rs', step (inFlight s n eb rs (.host a :: ts)) = .next (inFlight s n eb' rs' ts) := by
  obtain ⟨eb', rs', ht⟩ :=
    effect_busy_complete (s := inFlight s n eb rs ts) hf rfl hc (applyTurn_host_effect a _)
  refine ⟨eb', rs', ?_⟩
  rw [step_inFlight, runTurn_applyTurn, ht]
  rfl

theorem accumulateStep_inFlight : accumulateStep (inFlight s n eb rs ts) = { s with
    chain := s.chain.add (rounds (messageWord s.block) n s.chain), work := rounds (messageWord s.block) n s.chain
    j := 0, busy := false, done := s.last, errBusy := eb, responses := rs, turns := ts } := rfl

/-- The last engine step of a block leaves Compress(H, M). -/
theorem step_inFlight_accumulate (hf : s.fault = none) : step (inFlight s 64 eb rs (.engine :: ts)) = .next { s with
    chain := compress s.chain (messageWord s.block), work := rounds (messageWord s.block) 64 s.chain
    j := 0, busy := false, done := s.last, errBusy := eb, responses := rs, turns := ts } := by
  rw [step_inFlight, compress, ← accumulateStep_inFlight (n := 64)]
  exact engineTurn_accumulate (s := inFlight s 64 eb rs ts) (inFlight_fault.trans hf) rfl rfl

/-- The host access of an accepted COMPRESS puts the block in flight. -/
theorem step_compress {last : Bool} (hf : s.fault = none) (hb : s.busy = false) (hd : s.done = false)
    (hc : blockComplete s.block = true)
    (ht : s.turns = .host ⟨0b101, 0x00, if last then 0x00000006 else 0x00000002⟩ :: ts) :
    step s = .next (inFlight { s with last := last } 0 s.errBusy (.ok :: s.responses) ts) := by
  calc step s
      _ = exec (.compress last) { s with turns := ts } :=
        (step_of_turns_cons ht).trans (hostTurn_compress last _)
      _ = .next (startBlock last { s with turns := ts }) := exec_compress_idle last hf hb hd
      _ = _ := congrArg _ (startBlock_complete last hc)

/-- Any turns that are no reset and leave room for their engine steps do that many rounds. -/
theorem run_inFlight (hf : s.fault = none) (hc : blockComplete s.block = true) (hr : .reset ∉ us)
    (hn : n + us.count .engine ≤ 64) :
    ∃ eb' rs', Host.Core.run Sys2Proof.core us.length (inFlight s n eb rs (us ++ ts)) =
      .next (inFlight s (n + us.count .engine) eb' rs' ts) := by
  induction us generalizing n eb rs with
  | nil => exact ⟨eb, rs, rfl⟩
  | cons u us ih =>
    obtain ⟨hu, hrest⟩ := List.ne_and_not_mem_of_not_mem_cons hr
    cases u with
    | reset => exact absurd rfl hu
    | engine =>
      rw [List.count_cons_self, Nat.add_comm (us.count _), ← Nat.add_assoc] at hn ⊢
      rw [List.length_cons, List.cons_append, core_run_succ _ (step_inFlight_engine hf (by omega))]
      exact ih hrest hn
    | host a =>
      have hu' : Turn.host a ≠ .engine := nofun
      rw [List.count_cons_of_ne hu'] at hn ⊢
      obtain ⟨eb', rs', hstep⟩ := step_inFlight_host (n := n) (eb := eb) (rs := rs) (ts := us ++ ts) a hf hc
      rw [List.length_cons, List.cons_append, core_run_succ _ hstep]
      exact ih hrest hn

end

theorem step_answers (s : State) : ∃ t, step s = .next t := by
  rw [step_eq]
  split
  · exact engineTurn_answers _
  · exact ⟨_, runTurn_applyTurn _ _⟩

/-- A run that answers a next state goes on from there. -/
theorem core_run_add {m : Nat} (n : Nat) {s t : State} (h : Host.Core.run Sys2Proof.core m s = .next t) :
    Host.Core.run Sys2Proof.core (m + n) s = Host.Core.run Sys2Proof.core n t := by
  induction m generalizing s with
  | zero => cases h; rw [Nat.zero_add]
  | succ m ih =>
    obtain ⟨s', hs⟩ := step_answers s
    rw [core_run_succ _ hs] at h
    rw [Nat.add_right_comm, core_run_succ _ hs, ih h]

/-- Settles O16: COMPRESS puts the block in flight, the turns do its 64 rounds, and the last one is the accumulate step. -/
theorem compressionRunsToCompress : Obligations.CompressionRunsToCompress := by
  intro s last us hf hb hd hc hr hcount ht
  obtain ⟨eb, rs, hrounds⟩ := run_inFlight (s := { s with last := last }) (n := 0) (eb := s.errBusy)
    (rs := .ok :: s.responses) (ts := [.engine]) hf hc hr (by omega)
  rw [Nat.zero_add, hcount] at hrounds
  have hrun : Host.Core.run Sys2Proof.core s.turns.length s =
      Host.Core.run Sys2Proof.core 1 (inFlight { s with last := last } 64 eb rs [.engine]) := by
    rw [ht, List.length_cons, List.length_append, core_run_succ _ (step_compress hf hb hd hc ht), core_run_add _ hrounds]
    rfl
  exact ⟨_, hrun.trans (core_run_succ 0 (step_inFlight_accumulate hf)), rfl, rfl, rfl, rfl, hf, rfl, rfl, rfl⟩

end Sys2Proof.Machine
end

section
/-! Proofs of the statements of 43_digest.md: the digest's bytes and characters, and when a read of them is answered. -/

namespace Sys2Proof.Machine

/-! ### The digest bytes (R150) -/

theorem toNat_byteLane (v : Word) (q : Nat) : (byteLane v q).toNat = v.toNat / 2 ^ (8 * q) % 2 ^ 8 := by
  rw [byteLane, BitVec.extractLsb'_toNat, Nat.shiftRight_eq_div_pow]

theorem digestByte_word_lane (h : Quad) (w : Nat) {i : Nat} (hi : i < 4) :
    digestByte h (4 * w + i) = byteLane (chainWord h w) i := by
  rw [digestByte, Nat.mul_add_div (by decide), Nat.div_eq_of_lt hi, Nat.mul_add_mod, Nat.mod_eq_of_lt hi, Nat.add_zero]

theorem chainWord_eq_getD (h : Quad) {w : Nat} (hw : w < 4) : chainWord h w = [h.a, h.b, h.c, h.d].getD w 0 := by
  match w, hw with
  | 0, _ | 1, _ | 2, _ | 3, _ => rfl

/-- Settles O31: digest byte 4w + i is lane i of word w, and a lane is a quotient of its word. -/
theorem digestBytesAreLittleEndian : Obligations.DigestBytesAreLittleEndian := by
  intro h w i hw hi
  rw [digestByte_word_lane h w hi, toNat_byteLane, chainWord_eq_getD h hw]

/-! ### The hex digest (R151, R152) -/

theorem highNibble_eq (b : Byte) : b.extractLsb' 4 4 = BitVec.ofNat 4 (b.toNat / 16) := by
  rw [BitVec.extractLsb', Nat.shiftRight_eq_div_pow]

theorem lowNibble_eq (b : Byte) : b.extractLsb' 0 4 = BitVec.ofNat 4 (b.toNat % 16) :=
  BitVec.eq_of_toNat_eq (by simp [BitVec.extractLsb'_toNat])

theorem hexByte_even (h : Quad) (n : Nat) : hexByte h (2 * n) = hexchar ((digestByte h n).extractLsb' 4 4) := by
  rw [hexByte, if_pos (Nat.mul_mod_right 2 n), Nat.mul_div_cancel_left n (by decide)]

theorem hexByte_odd (h : Quad) (n : Nat) : hexByte h (2 * n + 1) = hexchar ((digestByte h n).extractLsb' 0 4) := by
  have hmod : ¬ (2 * n + 1) % 2 = 0 := by omega
  have hdiv : (2 * n + 1) / 2 = n := by omega
  rw [hexByte, if_neg hmod, hdiv]

/-- R152 as a number: the code of every character fits in a byte. -/
theorem toNat_hexchar (v : BitVec 4) :
    (hexchar v).toNat = if v.toNat < 10 then 0x30 + v.toNat else 0x61 + (v.toNat - 10) := by
  have hv : v.toNat < 16 := v.isLt
  unfold hexchar
  split
  · exact Nat.mod_eq_of_lt (by omega)
  · exact Nat.mod_eq_of_lt (by omega)

/-- Settles O32: an even character is of the high nibble and an odd one of the low nibble. -/
theorem hexDigestIsHighNibbleFirst : Obligations.HexDigestIsHighNibbleFirst := by
  refine ⟨fun h n => ⟨?high, ?low⟩, toNat_hexchar⟩
  case high => rw [hexByte_even, highNibble_eq]
  case low => rw [hexByte_odd, lowNibble_eq]

/-! ### No digest before DONE (R153) -/

section
variable {s : State} {off : BitVec 8} {c : BusCause}

theorem exec_rd8_refused (hf : s.fault = none) (hc : checkAccess .read 1 off s.done = some c) :
    exec (.rd8 off) s = .next (busError c s) :=
  (live_running _ hf).trans (congrArg Host.Outcome.next (ifAdmitted_refused (load8 off) hc))

theorem exec_rd32_refused (hf : s.fault = none) (hc : checkAccess .read 4 off s.done = some c) :
    exec (.rd32 off) s = .next (busError c s) :=
  (live_running _ hf).trans (congrArg Host.Outcome.next (ifAdmitted_refused (load32 off) hc))

/-- A read of a digest region passes every check but the last while DONE = 0. -/
theorem checkAccess_digest_notReady {size : Nat} (hsize : size = 1 ∨ size = 4 ∧ off.toNat % 4 = 0)
    (hoff : (0x80 ≤ off.toNat ∧ off.toNat < 0x90) ∨ (0xA0 ≤ off.toNat ∧ off.toNat < 0xC0)) :
    checkAccess .read size off false = some .notReady := by
  have hlo : 0x80 ≤ off.toNat := by omega
  rw [checkAccess_eq, if_neg (by omega), if_neg (by omega), if_neg (by omega), if_neg (by omega),
    if_neg fun h => nomatch h.1]
  exact if_pos ⟨rfl, hlo, rfl⟩

/-- The alignment of a 4-byte access is checked before all that asks for its region. -/
theorem checkAccess_misaligned (dir : Dir) (done : Bool) (h : off.toNat % 4 ≠ 0) :
    checkAccess dir 4 off done = some .misaligned := by
  rw [checkAccess_eq, if_neg (by decide), if_pos ⟨rfl, h⟩]

end

/-- Settles O49: the check that fails is the one of DONE, for a misaligned read the earlier one of its offset. -/
theorem noDigestBeforeDone : Obligations.NoDigestBeforeDone := by
  intro s off hf hd hoff
  refine ⟨?byte, fun ha => ?word, fun hm => ?misaligned⟩
  case byte => exact exec_rd8_refused hf (hd ▸ checkAccess_digest_notReady (.inl rfl) hoff)
  case word => exact exec_rd32_refused hf (hd ▸ checkAccess_digest_notReady (.inr ⟨rfl, ha⟩) hoff)
  case misaligned => exact exec_rd32_refused hf (checkAccess_misaligned .read s.done hm)

/-! ### The digest stays readable (R154) -/

/-- A 4-byte write to CTRL is always admitted and does what its word commands (44_commands.md R161). -/
theorem exec_wr32_ctrl (v : Word) (s : State) :
    exec (.wr32 0x00 v) s = live (ctrlWhenIdle (command (decodeCtrl v))) s :=
  congrArg (live · s) (funext fun _ => ifAdmitted_admitted _ rfl)

/-- The word of a well-formed WR32 to CTRL is illegal: a legal one is spelled as its command. -/
theorem decodeCtrl_of_wellFormed {v : Word} (h : (Instr.wr32 0x00 v).wellFormed = true) : decodeCtrl v = .illegal := by
  by_contra hv
  simp [Instr.wellFormed, (legalCtrlWord_iff v).2 hv] at h

/-- The write of an illegal CTRL word only raises an error bit. -/
theorem exec_wr32_illegal {v : Word} {s t : State} (hv : decodeCtrl v = .illegal)
    (h : exec (.wr32 0x00 v) s = .next t) : OnlyReports s t := by
  rw [exec_wr32_ctrl, hv] at h
  obtain ⟨_, rfl⟩ | ⟨_, rfl⟩ := live_next h
  · cases hb : s.busy with
    | true => rw [ctrlWhenIdle_busy _ hb]; rfl
    | false => rw [ctrlWhenIdle_idle _ hb]; rfl
  · rfl

/-- Of all that a host access can decode to, only INIT writes A..D or DONE. -/
theorem exec_decoded_keeps_chain_done {it : Item} {i : Instr} {s t : State} (hi : decode it = .ok i) (hn : i ≠ .init)
    (h : exec i s = .next t) : t.chain = s.chain ∧ t.done = s.done := by
  by_cases hc : CanInit i
  · obtain rfl | ⟨v, rfl⟩ := hc
    · exact absurd rfl hn
    · have hv : decodeCtrl v = .illegal := decodeCtrl_of_wellFormed (decodedInstructionIsWellFormed it _ hi)
      have ht : OnlyReports s t := exec_wr32_illegal hv h
      exact ⟨(congrArg State.chain ht :), (congrArg State.done ht :)⟩
  · exact (exec_change h).chain_done_eq hc

/-- A host access that is no INIT leaves A..D and DONE as they are. -/
theorem hostTurn_keeps_chain_done {a : Access} {s t : State} (hn : decode (.bus a.op a.off a.data) ≠ .ok .init)
    (h : hostTurn a s = .next t) : t.chain = s.chain ∧ t.done = s.done := by
  cases hd : decode (.bus a.op a.off a.data) with
  | ok i =>
    rw [hostTurn_of_decode_ok hd] at h
    exact exec_decoded_keeps_chain_done hd (fun e => hn (e ▸ hd)) h
  | error r =>
    cases hf : s.fault with
    | some f => rw [effect_of_fault hf (hostTurn_effect h)]; exact ⟨rfl, rfl⟩
    | none =>
      rw [hostTurn_of_decode_error hd hf] at h
      cases h
      exact ⟨rfl, rfl⟩

/-- Settles O14: DONE = 1 means BUSY = 0, so the engine does nothing, and of the host's accesses only INIT writes A..D or
DONE. -/
theorem digestIsStableWhileDone : Obligations.DigestIsStableWhileDone := by
  intro s t ⟨_, hidle, _⟩ hd h hreset hinit
  have hb : s.busy = false := hidle hd
  obtain ⟨hchain, hdone⟩ : t.chain = s.chain ∧ t.done = s.done := by
    cases ht : s.turns with
    | nil =>
      rw [step_of_turns_nil ht, engineTurn_idle hb] at h
      cases h
      exact ⟨rfl, rfl⟩
    | cons u ts =>
      rw [step_of_turns_cons ht] at h
      rw [ht] at hreset hinit
      cases u with
      | host a => exact hostTurn_keeps_chain_done (s := { s with turns := ts }) (hinit a rfl) h
      | engine => cases (engineTurn_idle (s := { s with turns := ts }) hb).symm.trans h; exact ⟨rfl, rfl⟩
      | reset => exact absurd rfl hreset
  rw [hchain]
  exact ⟨hdone.trans hd, rfl, fun _ => rfl, fun _ => rfl⟩

end Sys2Proof.Machine
end

section
/-! Proofs of the statements of 44_commands.md: what each command and each register access does when it completes. -/

namespace Sys2Proof.Machine

/-! ### The CTRL commands (R161 to R164) -/

/-- Every CTRL instruction is its command behind the BUSY check (R161). -/
theorem exec_of_instrOfCtrl {c : CtrlCmd} {i : Instr} (h : instrOfCtrl c = some i) (s : State) :
    exec i s = live (ctrlWhenIdle (command c)) s := by
  cases c with
  | illegal => cases h
  | nop | init | compress => cases h; rfl

theorem exec_ctrl_idle {c : CtrlCmd} {i : Instr} {s : State} (h : instrOfCtrl c = some i) (hf : s.fault = none)
    (hb : s.busy = false) : exec i s = .next (command c s) := by
  rw [exec_of_instrOfCtrl h, live_running _ hf, ctrlWhenIdle_idle _ hb]

theorem exec_ctrl_busy {c : CtrlCmd} {i : Instr} {s : State} (h : instrOfCtrl c = some i) (hf : s.fault = none)
    (hb : s.busy = true) : exec i s = .next (raiseErrBusy s) := by
  rw [exec_of_instrOfCtrl h, live_running _ hf, ctrlWhenIdle_busy _ hb]

/-- Settles O33: idle, the command only answers the host; busy, the check before it raises ErrBusy. -/
theorem nopCompletes : Obligations.NopCompletes :=
  fun _ hf => ⟨exec_ctrl_idle (c := .nop) rfl hf, exec_ctrl_busy (c := .nop) rfl hf⟩

/-- Settles O34: idle, the command loads the IV and clears DONE; busy, the check before it raises ErrBusy. -/
theorem initCompletes : Obligations.InitCompletes :=
  fun _ hf => ⟨exec_ctrl_idle (c := .init) rfl hf, exec_ctrl_busy (c := .init) rfl hf⟩

/-- Settles O55: the case of a complete block of StartBlock. -/
theorem compressCompletes : Obligations.CompressCompletes := by
  intro s last hf hb hd hall
  obtain ⟨hcomplete, _⟩ := compressStartsBlock s last hf hb hd
  exact hcomplete hall

/-- The write of a legal CTRL word is the instruction of its command. -/
theorem exec_wr32_of_instrOfCtrl {w : Word} {i : Instr} (h : instrOfCtrl (decodeCtrl w) = some i) (s : State) :
    exec (.wr32 0x00 w) s = exec i s := by
  rw [exec_wr32_ctrl, exec_of_instrOfCtrl h]

/-- Settles O39: each of the four words decodes to its command. -/
theorem writeOfCtrlWordIsItsCommand : Obligations.WriteOfCtrlWordIsItsCommand :=
  fun s => ⟨exec_wr32_of_instrOfCtrl rfl s, exec_wr32_of_instrOfCtrl rfl s, exec_wr32_of_instrOfCtrl rfl s,
    exec_wr32_of_instrOfCtrl rfl s⟩

/-! ### The block writes (R167 to R169) -/

/-- Each lane of a stored word is at its own index (20_memory.md R53). -/
theorem blockRead_writeWord_lane (m : Memory) (a : Nat) (v : Word) {q : Nat} (hq : q < 4) :
    blockRead (blockWriteBytes m a (wordBytes v)) (a + q) = some (byteLane v q) := by
  have hin : a ≤ a + q ∧ a + q < a + (wordBytes v).length := ⟨Nat.le_add_right a q, Nat.add_lt_add_left hq a⟩
  rw [blockRead_writeBytes, if_pos hin, Nat.add_sub_cancel_left]
  match q, hq with
  | 0, _ | 1, _ | 2, _ | 3, _ => rfl

theorem blockRead_writeWord_other (m : Memory) {a i : Nat} (v : Word) (hi : i < a ∨ a + 4 ≤ i) :
    blockRead (blockWriteBytes m a (wordBytes v)) i = blockRead m i := by
  rw [blockRead_writeBytes, wordBytes_length, if_neg (by omega)]

/-- Settles O44: the new block is the old one with the word's four lanes stored. -/
theorem wr32StoresFourBytes : Obligations.Wr32StoresFourBytes := fun s k v hf hb hk =>
  ⟨blockWriteBytes s.block (4 * k) (wordBytes v), exec_wr32_block v hf hb hk,
    fun _ hq => blockRead_writeWord_lane s.block (4 * k) v hq, fun _ hi => blockRead_writeWord_other s.block v hi⟩

/-- Settles O45: the new block is the old one with the byte stored. -/
theorem wr8StoresOneByte : Obligations.Wr8StoresOneByte := fun s i v hf hb hi =>
  ⟨blockWrite s.block i v, exec_wr8_block v hf hb hi, blockRead_write_same s.block i v,
    fun _ ha => blockRead_write_other s.block v ha⟩

/-! ### What a read of BLOCK finds -/

theorem blockRead_of_not_written {m : Memory} {i : Nat} (h : written m i = false) : blockRead m i = none :=
  Option.isNone_iff_eq_none.1 (Option.isSome_eq_false_iff.1 h)

/-- A 4-byte read finds the four bytes, the first least significant. -/
theorem blockReadWord_of_bytes {m : Memory} {i : Nat} {b0 b1 b2 b3 : Byte} (h0 : blockRead m i = some b0)
    (h1 : blockRead m (i + 1) = some b1) (h2 : blockRead m (i + 2) = some b2) (h3 : blockRead m (i + 3) = some b3) :
    blockReadWord m i = some (packWord b0 b1 b2 b3) := by
  simp only [blockReadWord, h0, h1, h2, h3]

/-- One unwritten byte of the four leaves a 4-byte read without a value. -/
theorem blockReadWord_of_not_written {m : Memory} {i q : Nat} (hq : q < 4) (h : written m (i + q) = false) :
    blockReadWord m i = none := by
  have hnone := blockRead_of_not_written h
  unfold blockReadWord
  split
  case h_2 => rfl
  case h_1 h0 h1 h2 h3 =>
    match q, hq with
    | 0, _ => exact nomatch h0.symm.trans hnone
    | 1, _ => exact nomatch h1.symm.trans hnone
    | 2, _ => exact nomatch h2.symm.trans hnone
    | 3, _ => exact nomatch h3.symm.trans hnone

/-! ### The digest regions with DONE = 1 -/

theorem region_digestBytes {off : BitVec 8} : region off = .digestBytes ↔ 0x80 ≤ off.toNat ∧ off.toNat < 0x90 := by
  unfold region
  repeat' split
  all_goals (simp; omega)

theorem region_digestHex {off : BitVec 8} : region off = .digestHex ↔ 0xA0 ≤ off.toNat ∧ off.toNat < 0xC0 := by
  unfold region
  repeat' split
  all_goals (simp; omega)

/-- Four digest bytes from a word's first on are the word of A..D (43_digest.md R150). -/
theorem packWord_digestByte (h : Quad) (w : Nat) :
    packWord (digestByte h (4 * w)) (digestByte h (4 * w + 1)) (digestByte h (4 * w + 2)) (digestByte h (4 * w + 3)) =
      chainWord h w := by
  have lane0 : digestByte h (4 * w) = byteLane (chainWord h w) 0 := digestByte_word_lane h w (i := 0) (by decide)
  rw [lane0, digestByte_word_lane h w (by decide), digestByte_word_lane h w (by decide),
    digestByte_word_lane h w (by decide), packWord_byteLane]

/-- With DONE = 1 a read of a digest region passes every check (20_memory.md R58). -/
theorem checkAccess_digest_ready {size : Nat} {off : BitVec 8} (hsize : size = 1 ∨ size = 4 ∧ off.toNat % 4 = 0)
    (hoff : (0x80 ≤ off.toNat ∧ off.toNat < 0x90) ∨ (0xA0 ≤ off.toNat ∧ off.toNat < 0xC0)) :
    checkAccess .read size off true = none := by
  rw [checkAccess_eq, if_neg (by omega), if_neg (by omega), if_neg (by omega), if_neg (by omega),
    if_neg fun h => nomatch h.1]
  exact if_neg fun ⟨_, _, h⟩ => nomatch h

/-! ### The reads (R165, R166) -/

section
variable {s : State} {n : Nat}

theorem digestBytes_offset (hn : n < 16) :
    (BitVec.ofNat 8 (0x80 + n)).toNat = 0x80 + n ∧ region (BitVec.ofNat 8 (0x80 + n)) = .digestBytes := by
  have hoff : (BitVec.ofNat 8 (0x80 + n)).toNat = 0x80 + n := Nat.mod_eq_of_lt (by omega)
  exact ⟨hoff, region_digestBytes.2 (by omega)⟩

theorem digestHex_offset (hn : n < 32) :
    (BitVec.ofNat 8 (0xA0 + n)).toNat = 0xA0 + n ∧ region (BitVec.ofNat 8 (0xA0 + n)) = .digestHex := by
  have hoff : (BitVec.ofNat 8 (0xA0 + n)).toNat = 0xA0 + n := Nat.mod_eq_of_lt (by omega)
  exact ⟨hoff, region_digestHex.2 (by omega)⟩

theorem exec_rd8_admitted {off : BitVec 8} (hf : s.fault = none) (hc : checkAccess .read 1 off s.done = none) :
    exec (.rd8 off) s = .next (load8 off s) :=
  (live_running _ hf).trans (congrArg Host.Outcome.next (ifAdmitted_admitted (load8 off) hc))

theorem exec_rd32_admitted {off : BitVec 8} (hf : s.fault = none) (hc : checkAccess .read 4 off s.done = none) :
    exec (.rd32 off) s = .next (load32 off s) :=
  (live_running _ hf).trans (congrArg Host.Outcome.next (ifAdmitted_admitted (load32 off) hc))

/-- RD8 of byte `i` of BLOCK (R166). -/
theorem exec_rd8_block {i : Nat} (hf : s.fault = none) (hi : i < 64) :
    exec (.rd8 (BitVec.ofNat 8 (0x40 + i))) s = .next (blockLoad ((blockRead s.block i).map .data8) s) := by
  rw [exec_rd8_admitted hf (checkAccess_blockOffset .read s.done hi (.inl rfl))]
  simp only [load8, region_blockOffset hi, blockIndex_blockOffset hi]

/-- RD8 of a digest byte with DONE = 1 (R166). -/
theorem exec_rd8_digestBytes (hf : s.fault = none) (hd : s.done = true) (hn : n < 16) :
    exec (.rd8 (BitVec.ofNat 8 (0x80 + n))) s = .next (respond (.data8 (digestByte s.chain n)) s) := by
  obtain ⟨hoff, hr⟩ := digestBytes_offset hn
  rw [exec_rd8_admitted hf (hd ▸ checkAccess_digest_ready (.inl rfl) (by omega))]
  simp only [load8, hr, hoff, Nat.add_sub_cancel_left]

/-- RD8 of a hex character with DONE = 1 (R166). -/
theorem exec_rd8_digestHex (hf : s.fault = none) (hd : s.done = true) (hn : n < 32) :
    exec (.rd8 (BitVec.ofNat 8 (0xA0 + n))) s = .next (respond (.data8 (hexByte s.chain n)) s) := by
  obtain ⟨hoff, hr⟩ := digestHex_offset hn
  rw [exec_rd8_admitted hf (hd ▸ checkAccess_digest_ready (.inl rfl) (by omega))]
  simp only [load8, hr, hoff, Nat.add_sub_cancel_left]

/-- RD32 of word `n` of A..D with DONE = 1 (R165, 43_digest.md R150). -/
theorem exec_rd32_digestBytes (hf : s.fault = none) (hd : s.done = true) (hn : n < 4) :
    exec (.rd32 (BitVec.ofNat 8 (0x80 + 4 * n))) s = .next (respond (.data32 (chainWord s.chain n)) s) := by
  obtain ⟨hoff, hr⟩ := digestBytes_offset (n := 4 * n) (by omega)
  rw [exec_rd32_admitted hf (hd ▸ checkAccess_digest_ready (.inr ⟨rfl, by omega⟩) (by omega))]
  simp only [load32, hr, hoff, Nat.add_sub_cancel_left, packWord_digestByte]

/-- RD32 of four hex characters with DONE = 1 (R165). -/
theorem exec_rd32_digestHex (hf : s.fault = none) (hd : s.done = true) (hn : n < 8) :
    exec (.rd32 (BitVec.ofNat 8 (0xA0 + 4 * n))) s = .next (respond (.data32 (packWord (hexByte s.chain (4 * n))
      (hexByte s.chain (4 * n + 1)) (hexByte s.chain (4 * n + 2)) (hexByte s.chain (4 * n + 3)))) s) := by
  obtain ⟨hoff, hr⟩ := digestHex_offset (n := 4 * n) (by omega)
  rw [exec_rd32_admitted hf (hd ▸ checkAccess_digest_ready (.inr ⟨rfl, by omega⟩) (by omega))]
  simp only [load32, hr, hoff, Nat.add_sub_cancel_left]

theorem exec_rd32_ctrl (hf : s.fault = none) : exec (.rd32 0x00) s = .next (respond (.data32 0x00000000) s) :=
  exec_rd32_admitted hf (by cases s.done <;> rfl)

theorem exec_rd32_status (hf : s.fault = none) : exec (.rd32 0x04) s = .next (respond (.data32 (statusWord s)) s) :=
  exec_rd32_admitted hf (by cases s.done <;> rfl)

end

/-- Settles O43: the three regions that admit a 1-byte read, BLOCK with a written and with an unwritten byte. -/
theorem rd8Completes : Obligations.Rd8Completes := by
  intro s hf answers
  refine ⟨fun i v hi hv => ?written, fun i hi hw => ?unwritten, fun hd n hn => ?bytes, fun hd n hn => ?hex⟩
  case written => exact (exec_rd8_block hf hi).trans (by rw [hv]; rfl)
  case unwritten => rw [exec_rd8_block hf hi, blockRead_of_not_written hw]; rfl
  case bytes => exact exec_rd8_digestBytes hf hd hn
  case hex => exact exec_rd8_digestHex hf hd hn

/-- Settles O42: the five regions that admit a 4-byte read, BLOCK with four written bytes and with an unwritten one. -/
theorem rd32Completes : Obligations.Rd32Completes := by
  intro s hf answers
  refine ⟨exec_rd32_ctrl hf, ?status, fun k b0 b1 b2 b3 hk h0 h1 h2 h3 => ?written, fun k q hk hq hw => ?unwritten,
    fun hd w hw => ?bytes, fun hd q hq => exec_rd32_digestHex hf hd hq⟩
  case status => exact statusWord_eq s ▸ exec_rd32_status hf
  case written => exact (exec_rd32_block hf hk).trans (by rw [blockReadWord_of_bytes h0 h1 h2 h3]; rfl)
  case unwritten => rw [exec_rd32_block hf hk, blockReadWord_of_not_written hq hw]; rfl
  case bytes => exact chainWord_eq_getD s.chain hw ▸ exec_rd32_digestBytes hf hd hw

end Sys2Proof.Machine
end

section
/-! Proofs of the statements of 45_host_padding.md: the padded message, its blocks, and the host sequence. -/

namespace Sys2Proof.Machine

/-! ### The padded message (45_host_padding.md R191 to R193) -/

/-- The zero bytes bring the length with the marker byte to 56 modulo 64 (R192). -/
theorem zeroBytes_spec (n : Nat) : zeroBytes n < 64 ∧ (n + 1 + zeroBytes n) % 64 = 56 := by
  unfold zeroBytes
  omega

@[simp] theorem length_lengthField (n : Nat) : (lengthField n).length = 8 := rfl

/-- Byte `q` of the length field is a quotient of the bit length (R193). -/
theorem lengthField_getElem? (n : Nat) {q : Nat} (hq : q < 8) :
    (lengthField n)[q]? = some (BitVec.ofNat 8 ((8 * n) % 2 ^ 64 / 2 ^ (8 * q))) := by
  rw [lengthField, List.getElem?_map, List.getElem?_range hq]
  exact congrArg some (BitVec.eq_of_toNat_eq (by simp [BitVec.extractLsb'_toNat, Nat.shiftRight_eq_div_pow]))

theorem length_pad (msg : List Byte) : (pad msg).length = msg.length + 1 + zeroBytes msg.length + 8 := by
  simp only [pad, List.length_append, List.length_replicate, List.length_singleton, length_lengthField]

/-- What follows the message. -/
def padding (n : Nat) : List Byte := 0x80 :: (List.replicate (zeroBytes n) 0x00 ++ lengthField n)

theorem pad_eq (msg : List Byte) : pad msg = msg ++ padding msg.length := by
  simp only [pad, padding, List.append_assoc, List.cons_append, List.nil_append]

/-- Behind the message the padded message reads the padding. -/
theorem pad_getElem?_add (msg : List Byte) (i : Nat) : (pad msg)[msg.length + i]? = (padding msg.length)[i]? := by
  rw [pad_eq, List.getElem?_append_right (Nat.le_add_right _ _), Nat.add_sub_cancel_left]

/-- The message with its marker and zeros is a multiple of 64 less 8, so the length field fills the last
block (R194). -/
theorem length_pad_eq_blocks (msg : List Byte) : (pad msg).length = 64 * blockCount msg.length := by
  have := zeroBytes_spec msg.length
  rw [length_pad, blockCount]
  omega

/-- Settles O53: the four parts of the padded message in their order, each at the sum of the lengths before it. -/
theorem paddingBytes : Obligations.PaddingBytes := by
  intro msg n z
  obtain ⟨hz, hmod⟩ := zeroBytes_spec n
  refine ⟨hz, hmod, fun i hi => ?message, pad_getElem?_add msg 0, fun i hi hi' => ?zeros, fun q hq => ?bitLength⟩
  case message => rw [pad_eq, List.getElem?_append_left hi]
  case zeros =>
    obtain ⟨k, rfl⟩ := Nat.exists_eq_add_of_lt hi
    have hk : k < z := by omega
    rw [Nat.add_assoc, pad_getElem?_add, padding, List.getElem?_cons_succ,
      List.getElem?_append_left (by rwa [List.length_replicate]), List.getElem?_replicate_of_lt hk]
  case bitLength =>
    have hlen : (List.replicate z (0x00 : Byte)).length = z := List.length_replicate
    have hbehind : n + 1 + z + q = n + (z + q + 1) := by omega
    rw [hbehind, pad_getElem?_add, padding, List.getElem?_cons_succ,
      List.getElem?_append_right (hlen.trans_le (Nat.le_add_right z q)), hlen, Nat.add_sub_cancel_left,
      lengthField_getElem? _ hq]

/-! ### The blocks (45_host_padding.md R194) -/

/-- Consecutive pieces of length `c` put together are the list up to their end. -/
theorem flatten_pieces {α : Type} (l : List α) (c k : Nat) :
    ((List.range k).map fun t => (l.drop (c * t)).take c).flatten = l.take (c * k) := by
  induction k with
  | zero => simp
  | succ k ih => simp [List.range_succ, ih, Nat.mul_succ, List.take_add]

theorem length_paddedBlocks (msg : List Byte) : (paddedBlocks msg).length = blockCount msg.length := by
  simp [paddedBlocks]

theorem paddedBlocks_ne_nil (msg : List Byte) : paddedBlocks msg ≠ [] := by
  rw [← List.length_pos_iff, length_paddedBlocks]
  exact Nat.succ_pos _

/-- A block ends within the padded message, so none is cut short. -/
theorem length_of_mem_paddedBlocks {msg b : List Byte} (hb : b ∈ paddedBlocks msg) : b.length = 64 := by
  obtain ⟨t, ht, rfl⟩ := List.mem_map.1 hb
  have := List.mem_range.1 ht
  rw [List.length_take, List.length_drop, length_pad_eq_blocks]
  omega

theorem flatten_paddedBlocks (msg : List Byte) : (paddedBlocks msg).flatten = pad msg := by
  rw [paddedBlocks, flatten_pieces, ← length_pad_eq_blocks, List.take_length]

/-- Settles O52: the blocks are the padded message cut after every 64 bytes, and it is as long as they all. -/
theorem paddingFillsWholeBlocks : Obligations.PaddingFillsWholeBlocks := by
  intro msg
  have hcount := length_paddedBlocks msg
  rw [blockCount] at hcount
  exact ⟨length_pad msg, length_pad_eq_blocks msg, hcount, fun _ => length_of_mem_paddedBlocks,
    flatten_paddedBlocks msg, by omega, by omega⟩

/-! ### The state a busy period ends in (42_compression.md R135) -/

/-- `s` after the engine steps its busy period still takes. -/
def settled (s : State) : State :=
  if s.busy then
    { s with
      chain := compress s.chain (messageWord s.block), work := rounds (messageWord s.block) 64 s.chain
      j := 0, busy := false, done := s.last }
  else s

theorem settled_idle {s : State} (hb : s.busy = false) : settled s = s := if_neg (hb ▸ nofun)

theorem settled_busy {s : State} (hb : s.busy = true) : settled s =
    { s with
      chain := compress s.chain (messageWord s.block), work := rounds (messageWord s.block) 64 s.chain
      j := 0, busy := false, done := s.last } := if_pos hb

theorem settled_respond (r : Response) (s : State) : settled (respond r s) = respond r (settled s) := by
  cases hb : s.busy with
  | false => rw [settled_idle hb, settled_idle (s := respond r s) hb]
  | true => rw [settled_busy hb, settled_busy (s := respond r s) hb]; rfl

theorem engine_keeps_datapathInv {s : State} (hs : DatapathInv s) : DatapathInv (applyTurn s .engine) := by
  rw [applyTurn_engine]
  split
  · split
    · exact roundStep_keeps_datapathInv ‹_› hs
    · exact nofun
  · exact hs

/-- An engine step is one of those still to take, so the state they end in stays the same. -/
theorem settled_engine {s : State} (hf : s.fault = none) (hs : DatapathInv s) :
    settled (applyTurn s .engine) = settled s := by
  cases hb : s.busy with
  | false => rw [applyTurn_engine_idle hb]
  | true =>
    rw [applyTurn_engine, if_pos ⟨hf, hb⟩, settled_busy hb]
    split
    · exact settled_busy (s := roundStep s) hb
    · obtain ⟨hj, hwork⟩ := hs hb
      have h64 : s.j.toNat = 64 := by omega
      rw [h64] at hwork
      rw [settled_idle (accumulateStep_busy s), accumulateStep, hwork]
      rfl

/-! ### What the operations of a host lead to -/

/-- `s` with more words received, by reads of STATUS. -/
def received (vs : List Word) (s : State) : State := { s with responses := vs.map .data32 ++ s.responses }

theorem received_respond (vs : List Word) (v : Word) (s : State) :
    received vs (respond (.data32 v) s) = received (vs ++ [v]) s := by
  simp [received, respond]

/-- From `s` the operations lead to `post`: each access is made with BUSY = 0 and records no fault, and POLL goes on
from the end of the busy period, whatever its reads returned. -/
def Leads (post : State → Prop) : List HostOp → State → Prop
  | [], s => post s
  | .access a :: ops, s =>
    s.busy = false ∧ (applyTurn s (.host a)).fault = none ∧ Leads post ops (applyTurn s (.host a))
  | .poll :: ops, s => ∀ vs, Leads post ops (received vs (settled s))

section
variable {P Q : State → Prop} {ops ops' : List HostOp} {s : State}

theorem Leads.append (h : Leads P ops s) (h' : ∀ t, P t → Leads Q ops' t) : Leads Q (ops ++ ops') s := by
  induction ops generalizing s with
  | nil => exact h' s h
  | cons op ops ih =>
    cases op with
    | access a =>
      obtain ⟨hb, hf, hrest⟩ := h
      exact ⟨hb, hf, ih hrest⟩
    | poll => exact fun vs => ih (h vs)

theorem Leads.imp (h : Leads P ops s) (h' : ∀ t, P t → Q t) : Leads Q ops s :=
  List.append_nil ops ▸ h.append (ops' := []) h'

theorem Leads.access {a : Access} {t : State} (hb : s.busy = false) (hturn : applyTurn s (.host a) = t)
    (hf : t.fault = none) (hp : P t) : Leads P [.access a] s := by
  subst hturn
  exact ⟨hb, hf, hp⟩

/-- Operations one for each index lead along a predicate of the index. -/
theorem Leads.range {P : Nat → State → Prop} (op : Nat → HostOp) (n : Nat) (h : P 0 s)
    (hstep : ∀ i < n, ∀ t, P i t → Leads (P (i + 1)) [op i] t) : Leads (P n) ((List.range n).map op) s := by
  induction n with
  | zero => exact h
  | succ n ih =>
    rw [List.range_succ, List.map_append]
    exact (ih fun i hi => hstep i (by omega)).append fun t => hstep n (Nat.lt_succ_self n) t

end

/-! ### Every order of moves keeps what the rest of the program leads to -/

/-- The rest of the program leads to `post` from where the run stands. -/
structure OnCourse (post : State → Prop) (r : HostRun) : Prop where
  fault : r.engine.fault = none
  datapath : DatapathInv r.engine
  leads : Leads post r.program r.engine

section
variable {post : State → Prop} {r : HostRun}

/-- While BUSY = 1 only POLL is to be done next, and the engine's move does not change what POLL ends in. -/
theorem OnCourse.engine (hpost : ∀ s, post s → s.busy = false) (h : OnCourse post r) :
    OnCourse post (move r .engine) := by
  obtain ⟨program, polls, s⟩ := r
  obtain ⟨hf, hd, hl⟩ := h
  cases hb : s.busy with
  | false => rw [move_engine, applyTurn_engine_idle hb]; exact ⟨hf, hd, hl⟩
  | true =>
    obtain ⟨hf', _⟩ := applyTurn_engine_busy hf hb
    refine ⟨hf', engine_keeps_datapathInv hd, ?_⟩
    match program, hl with
    | [], hl => exact absurd (hb.symm.trans (hpost s hl)) nofun
    | .access _ :: _, ⟨hidle, _⟩ => exact absurd (hb.symm.trans hidle) nofun
    | .poll :: _, hl =>
      intro vs
      rw [move_engine, settled_engine hf hd]
      exact hl vs

/-- The host's move does the first operation of the program, or reads STATUS once more of its POLL. -/
theorem OnCourse.host (h : OnCourse post r) : OnCourse post (move r .host) := by
  obtain ⟨program, polls, s⟩ := r
  obtain ⟨hf, hd, hl⟩ := h
  match program, hl with
  | [], hl => exact ⟨hf, hd, hl⟩
  | .access a :: rest, hl =>
    obtain ⟨_, hf', hrest⟩ := hl
    exact ⟨hf', effect_keeps_datapathInv (applyTurn_host_effect a s) hd, hrest⟩
  | .poll :: rest, hl =>
    cases hb : s.busy with
    | false =>
      rw [move_host_poll_idle rfl hf hb]
      have hrest := hl [statusWord s]
      rw [settled_idle hb] at hrest
      exact ⟨hf, hd, hrest⟩
    | true =>
      rw [move_host_poll_busy rfl hf hb]
      refine ⟨hf, hd, fun vs => ?_⟩
      rw [settled_respond, received_respond]
      exact hl _

theorem OnCourse.runMoves (hpost : ∀ s, post s → s.busy = false) (h : OnCourse post r) (moves : List Agent) :
    OnCourse post (runMoves r moves) := by
  induction moves generalizing r with
  | nil => exact h
  | cons a moves ih =>
    cases a with
    | host => exact ih h.host
    | engine => exact ih (h.engine hpost)

/-! ### A program comes to its end under an order fair to both agents (70_reset_and_hazards.md R239) -/

theorem move_program_suffix (r : HostRun) (a : Agent) : (move r a).program <:+ r.program := by
  cases a with
  | engine => exact List.suffix_rfl
  | host =>
    cases h : r.program with
    | nil => rw [move_host_done h, h]
    | cons op rest =>
      cases op with
      | access a => rw [move_host_access h]; exact List.suffix_cons _ _
      | poll =>
        simp only [move, hostMove, h, pollRead]
        split
        · split
          · exact List.suffix_rfl
          · exact List.suffix_cons _ _
        · exact List.suffix_rfl

theorem runAgents_program_suffix (order : Nat → Agent) (n : Nat) (r : HostRun) :
    (runAgents order n r).program <:+ r.program := by
  induction n with
  | zero => exact List.suffix_rfl
  | succ n ih => rw [runAgents_succ]; exact (move_program_suffix _ _).trans ih

/-- An access is done at the latest by the host's next move. -/
theorem access_done {order : Nat → Agent} {a : Access} {rest : List HostOp} {m : Nat}
    (h : r.program = .access a :: rest) (ho : order m = .host) :
    (runAgents order (m + 1) r).program.length ≤ rest.length := by
  rw [runAgents_succ, ho]
  have hm := runAgents_program_suffix order m r
  rw [h, List.suffix_cons_iff] at hm
  obtain hm | hm := hm
  · rw [move_host_access hm]
  · exact ((move_program_suffix _ _).trans hm).length_le

/-- An order fair to both agents brings the program to its end, as long as no fault is recorded. -/
theorem program_ends (order : Nat → Agent) (hhost : Fair .host order) (hengine : Fair .engine order)
    (hf : ∀ n, (runAgents order n r).engine.fault = none) : ∃ n, (runAgents order n r).program = [] := by
  induction hlen : r.program.length using Nat.strong_induction_on generalizing r order with
  | _ len ih =>
    subst hlen
    suffices hless : r.program = [] ∨ ∃ n, (runAgents order n r).program.length < r.program.length by
      obtain hnil | ⟨n, hn⟩ := hless
      · exact ⟨0, hnil⟩
      · obtain ⟨k, hk⟩ := ih _ hn _ (fair_shift hhost n) (fair_shift hengine n)
          (fun k => runAgents_add order n k r ▸ hf (n + k)) rfl
        exact ⟨n + k, runAgents_add order n k r ▸ hk⟩
    cases hp : r.program with
    | nil => exact .inl rfl
    | cons op rest =>
      refine .inr ?_
      cases op with
      | access a =>
        obtain ⟨m, _, ho⟩ := hhost 0
        exact ⟨m + 1, Nat.lt_succ_of_le (access_done hp ho)⟩
      | poll =>
        obtain ⟨n, hn⟩ := everyPollEnds r rest order hp (hf 0) hengine
        obtain ⟨m, hm, ho⟩ := hhost n
        obtain ⟨k, _, _, _, _, hk, _⟩ := hn m hm ho
        exact ⟨k + 1, hk ▸ Nat.lt_succ_self _⟩

end

/-! ### Clean idle states -/

theorem cleanRun_respond {r : Response} (hr : r.isError = false) (s : State) :
    cleanRun (respond r s) = cleanRun s := by
  simp [cleanRun, noErrorBits, hr]

theorem cleanRun_received (vs : List Word) (s : State) : cleanRun (received vs s) = cleanRun s := by
  induction vs with
  | nil => rfl
  | cons v vs ih => exact (cleanRun_respond (r := .data32 v) rfl (received vs s)).trans ih

theorem cleanRun_settled (s : State) : cleanRun (settled s) = cleanRun s := by
  cases hb : s.busy with
  | false => rw [settled_idle hb]
  | true => rw [settled_busy hb]; simp only [cleanRun, noErrorBits]

/-- A clean state with BUSY = 0, the chaining value `c` in A..D and `d` in DONE. -/
structure CleanIdle (c : Quad) (d : Bool) (s : State) : Prop where
  clean : cleanRun s = true
  busy : s.busy = false
  chain : s.chain = c
  done : s.done = d

section
variable {c : Quad} {d : Bool} {s : State}

theorem CleanIdle.fault (h : CleanIdle c d s) : s.fault = none := by
  obtain ⟨_, hf⟩ := Bool.and_eq_true_iff.1 h.clean
  exact Option.isNone_iff_eq_none.1 hf

theorem CleanIdle.settled (h : CleanIdle c d s) : CleanIdle c d (settled s) := (settled_idle h.busy).symm ▸ h

theorem CleanIdle.respond (h : CleanIdle c d s) {r : Response} (hr : r.isError = false) :
    CleanIdle c d (respond r s) := ⟨(cleanRun_respond hr s).trans h.clean, h.busy, h.chain, h.done⟩

/-- A busy period ends in Compress(H, M) with DONE = L. -/
theorem cleanIdle_settled_of_busy (hc : cleanRun s = true) (hb : s.busy = true) :
    CleanIdle (compress s.chain (messageWord s.block)) s.last (settled s) := by
  refine ⟨(cleanRun_settled s).trans hc, ?_, ?_, ?_⟩ <;> rw [settled_busy hb]

/-- POLL leads to the end of the busy period. -/
theorem leads_poll (h : CleanIdle c d (settled s)) : Leads (CleanIdle c d) pseudoPoll s :=
  fun vs => ⟨(cleanRun_received vs _).trans h.clean, h.busy, h.chain, h.done⟩

/-! ### The accesses of the host sequence -/

theorem applyTurn_wr32 {off : Nat} {v : Word} {t : State} (h : exec (.wr32 (BitVec.ofNat 8 off) v) s = .next t) :
    applyTurn s (.host (wr32Access off v)) = t :=
  applyTurn_host_exec rfl ((exec_decodeWr32 _ v s).trans h)

theorem applyTurn_ctrl (w : Word) (hf : s.fault = none) (hb : s.busy = false) :
    applyTurn s (.host (wr32Access 0x00 w)) = command (decodeCtrl w) s :=
  applyTurn_wr32 ((exec_wr32_ctrl w s).trans (by rw [live_running _ hf, ctrlWhenIdle_idle _ hb]))

/-- A computation begins on the initial value, by INIT or because a reset left it (45_host_padding.md R195). -/
theorem leads_start (start : SequenceStart) (hc : cleanRun s = true) (hb : s.busy = false)
    (hreset : start = .afterReset → s.chain = iv ∧ s.done = false) :
    Leads (CleanIdle iv false) (startOps start) s := by
  have hidle : CleanIdle s.chain s.done s := ⟨hc, hb, rfl, rfl⟩
  cases start with
  | init =>
    exact .access hb (applyTurn_ctrl 0x00000001 hidle.fault hb) hidle.fault
      ⟨(cleanRun_respond rfl _).trans hc, hb, rfl, rfl⟩
  | afterReset =>
    obtain ⟨hchain, hdone⟩ := hreset rfl
    exact ⟨hc, hb, hchain, hdone⟩

end

/-! ### A block (45_host_padding.md R195) -/

/-- The block buffer holds the bytes of `b` below index `n`. -/
def HoldsBytes (b : List Byte) (n : Nat) (m : Memory) : Prop := ∀ i < n, blockRead m i = b[i]?

section
variable {b : List Byte} {m : Memory} {c : Quad} {s : State}

theorem byteLane_packWord_getD (b : List Byte) (i : Nat) {q : Nat} (hq : q < 4) :
    byteLane (packWord (b.getD i 0) (b.getD (i + 1) 0) (b.getD (i + 2) 0) (b.getD (i + 3) 0)) q = b.getD (i + q) 0 := by
  obtain ⟨h0, h1, h2, h3⟩ := byteLane_packWord (b.getD i 0) (b.getD (i + 1) 0) (b.getD (i + 2) 0) (b.getD (i + 3) 0)
  match q, hq with
  | 0, _ => exact h0
  | 1, _ => exact h1
  | 2, _ => exact h2
  | 3, _ => exact h3

/-- One write of LOADBLK adds four bytes (30_encoding.md R78). -/
theorem HoldsBytes.word {i : Nat} (h : HoldsBytes b (4 * i) m) (hi : 4 * i + 4 ≤ b.length) :
    HoldsBytes b (4 * (i + 1)) (blockWriteBytes m (4 * i) (wordBytes (packWord (b.getD (4 * i) 0)
      (b.getD (4 * i + 1) 0) (b.getD (4 * i + 2) 0) (b.getD (4 * i + 3) 0)))) := by
  intro a ha
  by_cases hold : a < 4 * i
  · rw [blockRead_writeWord_other m _ (.inl hold), h a hold]
  · obtain ⟨q, rfl⟩ := Nat.exists_eq_add_of_le (Nat.le_of_not_lt hold)
    rw [blockRead_writeWord_lane m _ _ (by omega), byteLane_packWord_getD b _ (by omega),
      List.getD_eq_getElem?_getD, List.getElem?_eq_getElem (by omega), Option.getD_some]

theorem HoldsBytes.complete (h : HoldsBytes b 64 m) (hlen : b.length = 64) : blockComplete m = true :=
  (blockComplete_iff m).2 fun i hi => ⟨b[i], (h i hi).trans (List.getElem?_eq_getElem _)⟩

/-- The message words of a loaded block are the block's (42_compression.md R130). -/
theorem HoldsBytes.messageWord_eq (h : HoldsBytes b 64 m) (hlen : b.length = 64) : messageWord m = blockWords b := by
  have hbyte : ∀ i < 64, storedByte m i = storedByte (blockWriteBytes [] 0 b) i := by
    intro i hi
    rw [storedByte, storedByte, h i hi, blockRead_writeBytes, if_pos (by omega), Nat.sub_zero]
  funext k
  have hk := k.isLt
  rw [blockWords, messageWord, messageWord, hbyte _ (by omega), hbyte _ (by omega), hbyte _ (by omega),
    hbyte _ (by omega)]

/-- LOADBLK stores the 64 bytes of a block. -/
theorem leads_loadBlk (h : CleanIdle c false s) (hlen : b.length = 64) :
    Leads (fun t => CleanIdle c false t ∧ HoldsBytes b 64 t.block) (pseudoLoadBlk b) s := by
  refine Leads.range (P := fun i t => CleanIdle c false t ∧ HoldsBytes b (4 * i) t.block) _ 16
    ⟨h, fun _ h0 => absurd h0 (Nat.not_lt_zero _)⟩ fun i hi t ⟨ht, hbytes⟩ => ?_
  refine .access ht.busy (applyTurn_wr32 (exec_wr32_block _ ht.fault ht.busy hi)) ht.fault ⟨?idle, ?bytes⟩
  case idle => exact ⟨(cleanRun_respond rfl _).trans ht.clean, ht.busy, ht.chain, ht.done⟩
  case bytes => exact hbytes.word (by omega)

/-- What COMPRESS makes of an idle state with a complete block (42_compression.md R131). -/
def blockStarted (last : Bool) (s : State) : State :=
  respond .ok { s with work := s.chain, j := 0, last := last, busy := true }

/-- The write of a COMPRESS word starts the loaded block. -/
theorem applyTurn_compress (last : Bool) (h : CleanIdle c false s) (hc : blockComplete s.block = true) :
    applyTurn s (.host (wr32Access 0x00 (if last then 0x00000006 else 0x00000002))) = blockStarted last s := by
  have hdec : decodeCtrl (if last then 0x00000006 else 0x00000002) = .compress last := by cases last <;> rfl
  rw [applyTurn_ctrl _ h.fault h.busy, hdec, command, doCompress, if_neg (h.done ▸ nofun),
    startBlock_complete last hc]
  rfl

/-- COMPRESS of a loaded block leads to a busy period that ends in Compress(H, M) with DONE = LAST. -/
theorem leads_compress (last : Bool) (h : CleanIdle c false s) (hbytes : HoldsBytes b 64 s.block)
    (hlen : b.length = 64) :
    Leads (fun t => CleanIdle (compress c (blockWords b)) last (settled t))
      [.access (wr32Access 0x00 (if last then 0x00000006 else 0x00000002))] s := by
  have hend : CleanIdle (compress s.chain (messageWord s.block)) last (settled (blockStarted last s)) :=
    cleanIdle_settled_of_busy (s := blockStarted last s) ((cleanRun_respond rfl _).trans h.clean) rfl
  rw [h.chain, hbytes.messageWord_eq hlen] at hend
  exact .access h.busy (applyTurn_compress last h (hbytes.complete hlen)) h.fault hend

/-- The operations of one block take the chaining value one block on. -/
theorem leads_block (last : Bool) (h : CleanIdle c false (settled s)) (hlen : b.length = 64) :
    Leads (fun t => CleanIdle (compress c (blockWords b)) last (settled t))
      (pseudoPoll ++ pseudoLoadBlk b ++ [.access (wr32Access 0x00 (if last then 0x00000006 else 0x00000002))]) s :=
  ((leads_poll h).append fun _ ht => leads_loadBlk ht hlen).append fun _ ⟨ht, hbytes⟩ =>
    leads_compress last ht hbytes hlen

/-- The operations of the blocks lead to a busy period that ends in the chaining value of them all with DONE = 1
(42_compression.md R136). -/
theorem leads_blocks {blocks : List (List Byte)} (hne : blocks ≠ []) (hlen : ∀ b ∈ blocks, b.length = 64)
    (h : CleanIdle c false (settled s)) :
    Leads (fun t => CleanIdle (blocks.foldl (fun h b => compress h (blockWords b)) c) true (settled t))
      (blockOps blocks) s := by
  induction blocks generalizing c s with
  | nil => exact absurd rfl hne
  | cons b blocks ih =>
    obtain ⟨hb, hrest⟩ := List.forall_mem_cons.1 hlen
    rw [List.foldl_cons]
    cases blocks with
    | nil => exact leads_block true h hb
    | cons b' blocks => exact (leads_block false h hb).append fun _ ht => ih nofun hrest ht

end

/-! ### Reading the digest (43_digest.md R150, R155) -/

section
variable {c : Quad} {s : State}

/-- Reads that each return their word lead to these words received in order. -/
theorem leads_reads (off : Nat → Nat) (word : Nat → Word) (n : Nat) (h : CleanIdle c true s)
    (hread : ∀ i < n, ∀ t, CleanIdle c true t →
      exec (.rd32 (BitVec.ofNat 8 (off i))) t = .next (respond (.data32 (word i)) t)) :
    Leads (fun t => CleanIdle c true t ∧
        t.responses = (((List.range n).map word).map .data32).reverse ++ s.responses)
      ((List.range n).map fun i => .access (rd32Access (off i))) s := by
  refine Leads.range (P := fun i t => CleanIdle c true t ∧
    t.responses = (((List.range i).map word).map .data32).reverse ++ s.responses) _ n ⟨h, rfl⟩
    fun i hi t ⟨ht, hresp⟩ => ?_
  refine .access ht.busy (applyTurn_host_exec rfl (hread i hi t ht)) ht.fault ⟨ht.respond rfl, ?_⟩
  simp [hresp, List.range_succ]

/-- Character `n` of the digest string. -/
theorem digestString_getD (h : Quad) {n : Nat} (hn : n < 32) : (digestString h).getD n 0 = hexByte h n := by
  simp [digestString, hn]

/-- Either reading leads to the words of the message's digest received. -/
theorem leads_reading (reading : DigestReading) (msg : List Byte) (h : CleanIdle (chainOfMessage msg) true s) :
    Leads (fun t => CleanIdle (chainOfMessage msg) true t ∧
        t.responses = ((digestWords reading msg).map .data32).reverse ++ s.responses)
      (readingOps reading) s := by
  cases reading with
  | hex =>
    refine leads_reads (fun q => 0xA0 + 4 * q) _ 8 h fun q hq t ht => ?_
    rw [exec_rd32_digestHex ht.fault ht.done hq, ht.chain, hashOfMessage, digestString_getD _ (by omega),
      digestString_getD _ (by omega), digestString_getD _ (by omega), digestString_getD _ (by omega)]
  | bytes =>
    refine leads_reads (fun w => 0x80 + 4 * w) (chainWord (chainOfMessage msg)) 4 h fun w hw t ht => ?_
    rw [exec_rd32_digestBytes ht.fault ht.done hw, ht.chain]

end

/-! ### The host sequence (45_host_padding.md R195) -/

/-- What the host sequence of a message comes to. -/
def HashReceived (reading : DigestReading) (msg : List Byte) (e : State) : Prop :=
  CleanIdle (chainOfMessage msg) true e ∧
    ∃ earlier, e.responses = ((digestWords reading msg).map .data32).reverse ++ earlier

theorem hostSequence_leads (start : SequenceStart) (reading : DigestReading) (msg : List Byte) {s : State}
    (hc : cleanRun s = true) (hb : s.busy = false) (hreset : start = .afterReset → s.chain = iv ∧ s.done = false) :
    Leads (HashReceived reading msg) (hostSequence start reading msg) s := by
  have hblocks := (leads_start start hc hb hreset).append fun t ht =>
    leads_blocks (paddedBlocks_ne_nil msg) (fun _ => length_of_mem_paddedBlocks) ht.settled
  have hpoll := hblocks.append fun t ht => leads_poll ht
  exact hpoll.append fun t ht => (leads_reading reading msg ht).imp fun e ⟨he, hresp⟩ => ⟨he, _, hresp⟩

/-- Settles O60: every order of moves stays on the course of the sequence, whose end is the digest received, and none
records a fault, so that an order fair to both agents gets there. -/
theorem hostSequenceGivesHash : Obligations.HostSequenceGivesHash := by
  intro start reading msg s hc hb hreset begun
  have hbegun : OnCourse (HashReceived reading msg) begun :=
    ⟨CleanIdle.fault ⟨hc, hb, rfl, rfl⟩, fun hb' => absurd (hb.symm.trans hb') nofun,
      hostSequence_leads start reading msg hc hb hreset⟩
  have hcourse := hbegun.runMoves fun _ ⟨he, _⟩ => he.busy
  refine ⟨fun moves hend => ?result, fun order hhost hengine =>
    program_ends order hhost hengine fun n => (hcourse _).fault⟩
  obtain ⟨_, _, hleads⟩ := hcourse moves
  rw [hend] at hleads
  obtain ⟨he, earlier, hresp⟩ := hleads
  exact ⟨he.clean, he.busy, he.done, he.chain, hresp ▸ List.take_left' (by simp)⟩

end Sys2Proof.Machine
end

section
/-! Proofs of the statements of 60_exceptions.md: every way an access can end, and that the engine's own step ends in none
of them. -/

namespace Sys2Proof.Machine

/-! ### The step answers (R200, R209) -/

/-- Settles O11: the turn a step runs always answers a next state. -/
theorem stepAlwaysAnswersNext : Obligations.StepAlwaysAnswersNext := step_answers

/-! ### Bus errors (R202) -/

section
variable {s : State} {off : BitVec 8} {c : BusCause}

theorem exec_wr8_refused (v : Byte) (hf : s.fault = none) (hc : checkAccess .write 1 off s.done = some c) :
    exec (.wr8 off v) s = .next (busError c s) :=
  (live_running _ hf).trans (congrArg Host.Outcome.next (ifAdmitted_refused (store8 off v) hc))

theorem exec_wr32_refused (v : Word) (hf : s.fault = none) (hc : checkAccess .write 4 off s.done = some c) :
    exec (.wr32 off v) s = .next (busError c s) :=
  (live_running _ hf).trans (congrArg Host.Outcome.next (ifAdmitted_refused (store32 off v) hc))

end

/-- Settles O41: a failing check ends each of the four accesses in its bus error, which only adds a response. -/
theorem busErrorChangesNothing : Obligations.BusErrorChangesNothing :=
  ⟨fun _ _ _ hf => ⟨exec_rd8_refused hf, fun v => exec_wr8_refused v hf, exec_rd32_refused hf,
    fun v => exec_wr32_refused v hf⟩, fun _ => rfl⟩

/-! ### Writes while BUSY = 1 (R203) -/

section
variable {s : State} {off : BitVec 8}

theorem exec_wr8_admitted (v : Byte) (hf : s.fault = none) (hc : checkAccess .write 1 off s.done = none) :
    exec (.wr8 off v) s = .next (store8 off v s) :=
  (live_running _ hf).trans (congrArg Host.Outcome.next (ifAdmitted_admitted (store8 off v) hc))

theorem exec_wr32_admitted (v : Word) (hf : s.fault = none) (hc : checkAccess .write 4 off s.done = none) :
    exec (.wr32 off v) s = .next (store32 off v s) :=
  (live_running _ hf).trans (congrArg Host.Outcome.next (ifAdmitted_admitted (store32 off v) hc))

/-- An offset in BLOCK is the base of BLOCK plus the index of its byte. -/
theorem eq_blockOffset (hr : region off = .block) : off = BitVec.ofNat 8 (0x40 + blockIndex off) := by
  obtain ⟨hlo, _⟩ := region_block.1 hr
  rw [blockIndex, Nat.add_sub_cancel' hlo, BitVec.ofNat_toNat, BitVec.setWidth_eq]

theorem checkAccess_block (dir : Dir) {size : Nat} (done : Bool) (hr : region off = .block)
    (hsize : size = 1 ∨ size = 4 ∧ off.toNat % 4 = 0) : checkAccess dir size off done = none := by
  have hindex : size = 1 ∨ size = 4 ∧ blockIndex off % 4 = 0 := by unfold blockIndex; omega
  rw [eq_blockOffset hr]
  exact checkAccess_blockOffset dir done (blockIndex_lt hr) hindex

theorem exec_wr8_block_busy (v : Byte) (hf : s.fault = none) (hb : s.busy = true) (hr : region off = .block) :
    exec (.wr8 off v) s = .next (raiseErrBusy s) := by
  rw [exec_wr8_admitted v hf (checkAccess_block .write s.done hr (.inl rfl))]
  simp only [store8, hr, blockStore_busy _ _ hb]

theorem exec_wr32_block_busy (v : Word) (hf : s.fault = none) (hb : s.busy = true) (hr : region off = .block)
    (ha : off.toNat % 4 = 0) : exec (.wr32 off v) s = .next (raiseErrBusy s) := by
  rw [exec_wr32_admitted v hf (checkAccess_block .write s.done hr (.inr ⟨rfl, ha⟩))]
  simp only [store32, hr, blockStore_busy _ _ hb]

theorem exec_wr32_ctrl_busy (v : Word) (hf : s.fault = none) (hb : s.busy = true) :
    exec (.wr32 0x00 v) s = .next (raiseErrBusy s) := by
  rw [exec_wr32_ctrl, live_running _ hf, ctrlWhenIdle_busy _ hb]

theorem exec_wr32_ctrl_idle (v : Word) (hf : s.fault = none) (hb : s.busy = false) :
    exec (.wr32 0x00 v) s = .next (command (decodeCtrl v) s) := by
  rw [exec_wr32_ctrl, live_running _ hf, ctrlWhenIdle_idle _ hb]

end

/-- Settles O37: the BUSY check stands before every command and before every block store. -/
theorem writesWhileBusyAreDropped : Obligations.WritesWhileBusyAreDropped := by
  intro s hf hb dropped
  refine ⟨exec_ctrl_busy (c := .nop) rfl hf hb, exec_ctrl_busy (c := .init) rfl hf hb,
    fun last => exec_ctrl_busy (c := .compress last) rfl hf hb, fun w => exec_wr32_ctrl_busy w hf hb,
    fun off v hlo hhi ha => ?word, fun off v hlo hhi => ?byte⟩
  case word => exact exec_wr32_block_busy v hf hb (region_block.2 ⟨hlo, hhi⟩) ha
  case byte => exact exec_wr8_block_busy v hf hb (region_block.2 ⟨hlo, hhi⟩)

/-! ### Dropped commands (R204, R205) -/

/-- Settles O38: a word that is none of the four legal ones decodes to no command, and ErrCmd is what that raises. -/
theorem illegalCtrlWordIsDropped : Obligations.IllegalCtrlWordIsDropped := by
  intro s w hf hb hnop hinit hcompress hlast
  have hillegal : decodeCtrl w = .illegal := by
    rw [decodeCtrl_eq, if_neg hnop, if_neg hinit, if_neg hcompress, if_neg hlast]
  rw [exec_wr32_ctrl_idle w hf hb, hillegal]
  rfl

/-- Settles O36: with DONE = 1 the command of COMPRESS is ErrSeq. -/
theorem compressAfterDoneIsDropped : Obligations.CompressAfterDoneIsDropped := by
  intro s last hf hb hd
  rw [exec_ctrl_idle (c := .compress last) rfl hf hb, command, doCompress, if_pos hd]
  rfl

/-! ### The error bits (R207) -/

/-- Settles O13: a host access keeps an error bit that is set, the engine's steps touch none; and STATUS, admitted for no
write, ends one in RO_WRITE. -/
theorem errorBitsAreSticky : Obligations.ErrorBitsAreSticky := by
  refine ⟨fun s t h hn => ?sticky, fun s v hf => exec_wr32_refused v hf rfl⟩
  cases step_effect h with
  | idle | rounded | accumulated => exact ⟨id, id, id⟩
  | effect he =>
    obtain ⟨_, _, hcmd, hbusy, hseq, _⟩ := effect_commonFrame he
    exact ⟨hcmd, hbusy, hseq⟩
  | reset hr => exact absurd hr hn

/-! ### One outcome per access, none per engine step (R206, R208) -/

/-- Settles O50: of all that a host access can do, only the fault record gives no response, and it alone sets the record. -/
theorem hostAccessHasOneOutcome : Obligations.HostAccessHasOneOutcome := by
  intro a s t hf h
  cases hostTurn_effect h with
  | quiescent hq => exact absurd hf hq
  | faulted f => exact .inr ⟨f, rfl⟩
  | responded | droppedBusy | droppedCmd | droppedSeq | initialised | started | stored => exact .inl ⟨⟨_, rfl⟩, hf⟩

/-- The three things an engine turn can do (42_compression.md R134). -/
theorem engineTurn_cases {s t : State} (h : engineTurn s = .next t) :
    t = s ∨ t = roundStep s ∨ t = accumulateStep s := by
  rw [engineTurn_eq] at h
  cases h
  split_ifs
  · exact .inr (.inl rfl)
  · exact .inr (.inr rfl)
  · exact .inl rfl

/-- Settles O25: neither a round nor the accumulate step writes any of these. -/
theorem engineTurnRaisesNothing : Obligations.EngineTurnRaisesNothing := by
  intro s t h
  obtain rfl | rfl | rfl := engineTurn_cases h <;> exact ⟨rfl, rfl, rfl, rfl, rfl, rfl, rfl, rfl⟩

end Sys2Proof.Machine
end

section
/-! Proofs of the statements of 70_reset_and_hazards.md: what a reset leaves, and that a busy period ends. -/

namespace Sys2Proof.Machine

/-! ### Reset (R230, R231) -/

/-- STATUS reads 0 when its five bits are 0 (10_state.md R42). -/
theorem statusWord_eq_zero {s : State} (hb : s.busy = false) (hd : s.done = false) (hcmd : s.errCmd = false)
    (hbusy : s.errBusy = false) (hseq : s.errSeq = false) : statusWord s = 0x00000000 := by
  rw [statusWord, hb, hd, hcmd, hbusy, hseq]
  rfl

/-- Settles O8: a reset turn is the reset input on the rest of the state, and that is the power-on state but for the fault
record and for what is no state of the engine. -/
theorem resetLeavesResetValues : Obligations.ResetLeavesResetValues := by
  refine ⟨fun s ts ht => ⟨resetInput { s with turns := ts }, step_of_turns_cons ht, ?input⟩, ?powerOn⟩
  case input =>
    exact ⟨rfl, rfl, rfl, rfl, rfl, rfl, rfl, rfl, written_nil, rfl, statusWord_eq_zero rfl rfl rfl rfl rfl, rfl, rfl⟩
  case powerOn =>
    exact ⟨rfl, rfl, rfl, rfl, rfl, rfl, rfl, rfl, written_nil, rfl, statusWord_eq_zero rfl rfl rfl rfl rfl⟩

/-! ### One turn of a busy period (R239) -/

/-- A block in flight, to be closed with DONE = `last`. All its bytes are written, so no access can record a fault. -/
structure BlockPending (last : Bool) (s : State) : Prop where
  fault : s.fault = none
  busy : s.busy = true
  latch : s.last = last
  complete : blockComplete s.block = true

/-- The block is closed: the end of its busy period, as the statements say it. -/
def BlockClosed (last : Bool) (s : State) : Prop := s.busy = false ∧ s.j = 0 ∧ s.done = last ∧ s.fault = none

theorem blockPending_of_engineInv {s : State} (hs : EngineInv s) (hf : s.fault = none) (hb : s.busy = true) :
    BlockPending s.last s := by
  obtain ⟨_, _, _, _, hcomplete⟩ := hs
  exact ⟨hf, hb, rfl, hcomplete hb⟩

theorem applyTurn_engine_turns (s : State) : (applyTurn s .engine).turns = s.turns := by
  rw [applyTurn_engine]
  split_ifs <;> rfl

section
variable {s : State} {last : Bool}

theorem stepsLeft_pos (hb : s.busy = true) : 0 < stepsLeft s := by
  rw [stepsLeft, if_pos hb]
  exact Nat.succ_pos _

/-- A host access leaves a block in flight, with as many engine steps to come. -/
theorem BlockPending.host (h : BlockPending last s) (a : Access) :
    BlockPending last (applyTurn s (.host a)) ∧ stepsLeft (applyTurn s (.host a)) = stepsLeft s ∧
      (applyTurn s (.host a)).turns = s.turns := by
  obtain ⟨hf, hb, hl, hc⟩ := h
  obtain ⟨errBusy, responses, ht⟩ := effect_busy_complete hf hb hc (applyTurn_host_effect a s)
  rw [ht]
  exact ⟨⟨hf, hb, hl, hc⟩, rfl, rfl⟩

/-- The engine's turn closes the block, or leaves it in flight with fewer engine steps to come. -/
theorem BlockPending.engine (h : BlockPending last s) :
    BlockClosed last (applyTurn s .engine) ∨
      (BlockPending last (applyTurn s .engine) ∧ stepsLeft (applyTurn s .engine) < stepsLeft s) := by
  obtain ⟨hf, hb, hl, hc⟩ := h
  obtain ⟨hf', hl', hblock, _, ⟨hb', _⟩ | ⟨hb', hj, hd⟩⟩ := applyTurn_engine_busy hf hb
  · exact .inr ⟨⟨hf', hb', hl'.trans hl, hblock ▸ hc⟩,
      (stepsLeft_engine hf).trans_lt (Nat.sub_one_lt (stepsLeft_pos hb).ne')⟩
  · exact .inl ⟨hb', hj, hd.trans hl, hf'⟩

/-! ### A run of steps -/

/-- A step of a busy period with no reset to come closes the block, or leaves fewer turns and engine steps to come. -/
theorem BlockPending.step_progress (h : BlockPending last s) (hr : .reset ∉ s.turns) :
    ∃ t, step s = .next t ∧ (BlockClosed last t ∨
      (BlockPending last t ∧ .reset ∉ t.turns ∧ t.turns.length + stepsLeft t < s.turns.length + stepsLeft s)) := by
  cases hts : s.turns with
  | nil =>
    refine ⟨_, (step_of_turns_nil hts).trans (runTurn_applyTurn .engine s), h.engine.imp_right fun ⟨hp, hlt⟩ => ?_⟩
    rw [applyTurn_engine_turns, hts]
    exact ⟨hp, List.not_mem_nil, Nat.add_lt_add_left hlt _⟩
  | cons u us =>
    rw [hts] at hr
    obtain ⟨hu, hrest⟩ := List.ne_and_not_mem_of_not_mem_cons hr
    have hpop : BlockPending last { s with turns := us } := ⟨h.fault, h.busy, h.latch, h.complete⟩
    refine ⟨_, step_first hts, ?_⟩
    cases u with
    | reset => exact absurd rfl hu
    | engine =>
      refine hpop.engine.imp_right fun ⟨hp, hlt⟩ => ?_
      rw [applyTurn_engine_turns]
      exact ⟨hp, hrest, Nat.add_lt_add (Nat.lt_succ_self _) hlt⟩
    | host a =>
      obtain ⟨hp, hleft, hturns⟩ := hpop.host a
      rw [hturns, hleft]
      exact .inr ⟨hp, hrest, Nat.add_lt_add_right (Nat.lt_succ_self _) _⟩

theorem BlockPending.run_closes (h : BlockPending last s) (hr : .reset ∉ s.turns) :
    ∃ n t, Host.Core.run Sys2Proof.core n s = .next t ∧ BlockClosed last t := by
  induction hc : s.turns.length + stepsLeft s using Nat.strong_induction_on generalizing s with
  | _ c ih =>
    subst hc
    obtain ⟨t, ht, hclosed | ⟨hp, hr', hlt⟩⟩ := h.step_progress hr
    · exact ⟨1, t, core_run_succ 0 ht, hclosed⟩
    · obtain ⟨n, u, hrun, hclosed⟩ := ih _ hlt hp hr' rfl
      exact ⟨n + 1, u, (core_run_succ n ht).trans hrun, hclosed⟩

end

/-- Settles O17: every step of the busy period takes off a turn or an engine step, so it comes to its end. -/
theorem busyPeriodEnds : Obligations.BusyPeriodEnds := fun _ hs hf hb hr =>
  (blockPending_of_engineInv hs hf hb).run_closes hr

/-! ### An endless order fair to the engine -/

section
variable {s : State} {last : Bool} {order : Nat → Turn} {n : Nat}

/-- One more turn of the order, if it does not close the block, leaves no more engine steps to come. -/
theorem BlockPending.turn (h : BlockPending last (runTurns order n s)) (hr : order n ≠ .reset)
    (hopen : ¬ BlockClosed last (runTurns order (n + 1) s)) :
    BlockPending last (runTurns order (n + 1) s) ∧
      stepsLeft (runTurns order (n + 1) s) ≤ stepsLeft (runTurns order n s) := by
  rw [runTurns_succ] at hopen ⊢
  cases hu : order n with
  | reset => exact absurd hu hr
  | engine =>
    rw [hu] at hopen
    obtain ⟨hp, hlt⟩ := h.engine.resolve_left hopen
    exact ⟨hp, hlt.le⟩
  | host a =>
    obtain ⟨hp, hleft, _⟩ := h.host a
    exact ⟨hp, hleft.le⟩

/-- As long as nothing closes the block it stays in flight, and the engine steps to come never get more. -/
theorem BlockPending.stays (h : BlockPending last s) (hr : ∀ n, order n ≠ .reset)
    (hopen : ∀ n, ¬ BlockClosed last (runTurns order n s)) :
    (∀ n, BlockPending last (runTurns order n s)) ∧ Antitone fun n => stepsLeft (runTurns order n s) := by
  have hpending (n : Nat) : BlockPending last (runTurns order n s) := by
    induction n with
    | zero => exact h
    | succ n ih => exact (ih.turn (hr n) (hopen (n + 1))).1
  exact ⟨hpending, antitone_nat_of_succ_le fun n => ((hpending n).turn (hr n) (hopen (n + 1))).2⟩

/-- If nothing closed the block, there would be a point with the fewest engine steps to come, and the engine's next turn
would leave fewer. -/
theorem BlockPending.runTurns_closes (h : BlockPending last s) (hfair : Fair .engine order)
    (hr : ∀ n, order n ≠ .reset) : ∃ n, BlockClosed last (runTurns order n s) := by
  by_contra hnever
  have hopen := not_exists.1 hnever
  obtain ⟨hpending, hanti⟩ := h.stays hr hopen
  obtain ⟨n, hmin⟩ : ∃ n, ∀ m, stepsLeft (runTurns order n s) ≤ stepsLeft (runTurns order m s) :=
    ⟨_, fun m => Function.argmin_le (fun n => stepsLeft (runTurns order n s)) m⟩
  obtain ⟨m, hm, ho⟩ := hfair n
  have hlt : stepsLeft (runTurns order (m + 1) s) < stepsLeft (runTurns order m s) := by
    have hclosed := hopen (m + 1)
    rw [runTurns_succ, ho] at hclosed ⊢
    exact ((hpending m).engine.resolve_left hclosed).2
  exact absurd (hmin (m + 1)) (hlt.trans_le (hanti hm)).not_ge

end

/-- Settles O57: the invariant puts the block in flight, and an order fair to the engine closes it. -/
theorem busyPeriodEndsUnderFairness : Obligations.BusyPeriodEndsUnderFairness := fun _ _ hs hf hb hfair hr =>
  (blockPending_of_engineInv hs hf hb).runTurns_closes hfair hr

end Sys2Proof.Machine
end
